-- ==== Sys2Proof/Word.lean ====
section
/-! DEFINITION. Word.lean: the value types of `00_scope.md` R12 and the widths of `10_state.md` R20. -/

namespace Sys2Proof

/-- One byte (R12). -/
abbrev Byte := BitVec 8

/-- An offset in the register space: 17 address bits (`20_memory.md` R51). -/
abbrev Addr := BitVec 17

/-- `Bytes16` (R12): a key, an IV or a block; index `j` is byte `j`. -/
abbrev Block := Vector Byte 16

/-- The type of `E` and of `D` (R9): the key, then the block. -/
abbrev Prim := Block → Block → Block

end Sys2Proof
end

