-- ==== Sys2Proof/Syntax.lean ====
section
/-! DEFINITION. Syntax.lean: the command set, one constructor per row of `spec/opcode_table.json`
(`30_encoding.md` R82). No command has an operand field (R83). -/

namespace Sys2Proof

/-- The eight commands (R82). -/
inductive Instr where
  /-- `PAD`, code `0x01`: append PKCS#7 padding (R103). -/
  | pad
  /-- `STRIP`, code `0x02`: best-effort removal of padding (R108). -/
  | strip
  /-- `VALIDATE`, code `0x03`: strict validation and removal (R112). -/
  | validate
  /-- `ECB_ENC`, code `0x10` (R122). -/
  | ecbEnc
  /-- `ECB_DEC`, code `0x11` (R124). -/
  | ecbDec
  /-- `CBC_ENC`, code `0x12` (R130). -/
  | cbcEnc
  /-- `CBC_DEC`, code `0x13` (R134). -/
  | cbcDec
  /-- `CLR`, code `0xFF`: software reset (R150). -/
  | clr
deriving DecidableEq, Repr

end Sys2Proof
end

