-- ==== Sys2Proof/Decode.lean ====
section
/-! DEFINITION. Decode.lean: the decoder of `30_encoding.md` R80 to R84, and the encoder written from the bit fields
of R81. -/

namespace Sys2Proof

/-- Why a byte is no command. -/
inductive DecodeError where
  /-- The byte is one of the 248 reserved codes (R84). -/
  | reservedCode (c : Byte)
deriving DecidableEq, Repr

/-- One row of R82: a byte `c` selects it when `c AND mask = pattern`. -/
structure OpcodeRow where
  mask : Byte
  pattern : Byte
  instr : Instr
deriving DecidableEq, Repr

/-- The opcode map (R82); every mask is `0xFF`. -/
def opcodeTable : List OpcodeRow :=
  [⟨0xFF, 0x01, .pad⟩,
   ⟨0xFF, 0x02, .strip⟩,
   ⟨0xFF, 0x03, .validate⟩,
   ⟨0xFF, 0x10, .ecbEnc⟩,
   ⟨0xFF, 0x11, .ecbDec⟩,
   ⟨0xFF, 0x12, .cbcEnc⟩,
   ⟨0xFF, 0x13, .cbcDec⟩,
   ⟨0xFF, 0xFF, .clr⟩]

/-- A byte selects a row (R82). -/
def OpcodeRow.selects (r : OpcodeRow) (c : Byte) : Bool := c &&& r.mask = r.pattern

/-- The decoder: total on all 256 byte values (R84). -/
def decode (c : Byte) : Except DecodeError Instr :=
  match opcodeTable.find? (·.selects c) with
  | some r => .ok r.instr
  | none => .error (.reservedCode c)

/-- The field `unit`, bits 7:4 (R81). -/
def unitField : Instr → BitVec 4
  | .pad | .strip | .validate => 0x0
  | .ecbEnc | .ecbDec | .cbcEnc | .cbcDec => 0x1
  | .clr => 0xF

/-- The field `func` of the chainer unit: bits 3:2 are `00`, bit 1 is `mode`, bit 0 is `dir` (R81). -/
def chainerFunc (mode dir : BitVec 1) : BitVec 4 := (0#2 ++ mode) ++ dir

/-- The field `func`, bits 3:0 (R81, R82). -/
def funcField : Instr → BitVec 4
  | .pad => 0x1
  | .strip => 0x2
  | .validate => 0x3
  | .ecbEnc => chainerFunc 0 0
  | .ecbDec => chainerFunc 0 1
  | .cbcEnc => chainerFunc 1 0
  | .cbcDec => chainerFunc 1 1
  | .clr => 0xF

/-- The command byte of an instruction in format `C` (R81). -/
def encode (i : Instr) : Byte := unitField i ++ funcField i

/-- The instruction that the decoder reads from the opcode-table word `w` of `nbits` bits. The whole instruction is
one byte (R80), so a word of another size is no command. -/
def decodeTableWord (nbits w : Nat) : Option Instr :=
  if nbits = 8 ∧ w < 256 then
    match decode (BitVec.ofNat 8 w) with
    | .ok i => some i
    | .error _ => none
  else none

end Sys2Proof
end

