-- ==== Sys2Proof/Config.lean ====
section
/-! DEFINITION. Config.lean: the parameters of `00_scope.md` R8 and R9 and the free values of the engine.
An `opaque` constant here has no value that Lean can evaluate: whatever is proved holds for every choice of it. -/

namespace Sys2Proof

/-- A capacity of the data buffer: `32 <= CAP <= 65535` (R8). -/
structure Cap where
  val : Nat
  lower : 32 ≤ val
  upper : val ≤ 65535
deriving DecidableEq, Repr

/-- The unknown behind `Config.cap`. DESIGN CHOICE (log entry 1, safe). -/
opaque Config.capUnknown : Nat

/-- The capacity of the machine that `State.reset` describes: some number in the range of R8, each number of
which it can be. DESIGN CHOICE (log entry 1, safe). -/
def Config.cap : Cap := ⟨Config.capUnknown % 65504 + 32, by omega, by omega⟩

/-- `E` of R9: the block encryption function, total and uninterpreted (log entry 3, safe). -/
opaque Config.E : Prim

/-- `D` of R9: the block decryption function, total and uninterpreted. Nothing relates it to `E`: R10 asks that
`PrimInverse` be a named hypothesis (log entry 3, safe). -/
opaque Config.D : Prim

/-- The contents of `BUF` after power-on: byte `a` is entry `a` of the list (R23: unspecified, stable).
A free value (log entry 2). -/
opaque Config.powerOnBuf : List Byte

/-- The contents `BUF` takes at a reset or a CLR (`42_system.md` R150: "every byte takes some stable value the spec
does not give"). A free value; `before` is the machine's whole state when it happens, so that an implementation
that keeps, clears or scrambles the old bytes is covered; that state counts the resets so far, so that no run applies
this constant twice to one state (log entry 2). -/
opaque Config.clearedBuf {σ : Type} (before : σ) : List Byte

end Sys2Proof
end

