-- ==== Sys2Proof/Program.lean ====
section
/-! DEFINITION. Program.lean: what stands outside the engine as syntax: the registers' names (`20_memory.md` R52),
the host's transactions (R53, `30_encoding.md` R87) with the reset line (`70_reset_and_hazards.md` R190), and the
statements and pseudo-instructions of R88 and R89. -/

namespace Sys2Proof

/-- The named places of the register map (R52). -/
inductive Reg where
  | cmd
  | status
  | bs
  | result
  | lenL
  | lenH
  | capL
  | capH
  | key (j : Fin 16)
  | iv (j : Fin 16)
  /-- `BUF[a]`; the map has it for `a < CAP` only. -/
  | buf (a : Nat)
deriving DecidableEq, Repr

/-- What can reach the engine from outside, one at a time. -/
inductive HostEvent where
  /-- `HostWrite(addr, v)` (R53); the triple `W addr v` of R87. -/
  | write (addr : Addr) (v : Byte)
  /-- `HostRead(addr)` (R53); the triple `R addr` of R87. -/
  | read (addr : Addr)
  /-- The platform asserts the reset input (R190). -/
  | reset
deriving DecidableEq, Repr

/-- The statements of R88 and the pseudo-instructions of R89. -/
inductive Stmt where
  | wr (r : Reg) (v : Byte)
  | rd (r : Reg)
  /-- One of the eight command mnemonics. -/
  | cmd (i : Instr)
  | setLen (n : Nat)
  | setBs (n : Nat)
  | ldKey (bytes : List Byte)
  | ldIv (bytes : List Byte)
  | ldBuf (a : Nat) (bytes : List Byte)
  | load (bytes : List Byte)
  | getLen
  | rdBuf (a m : Nat)
  | getMsg
deriving DecidableEq, Repr

end Sys2Proof
end

