-- ==== Sys2Proof/Machine/State.lean ====
section
/-! DEFINITION. Machine/State.lean: the machine's state (`10_state.md` R20), the reasons a step can stop, and the
state after reset (R33). -/

namespace Sys2Proof.Machine

/-- Memory as plain data: the bytes of `BUF` that differ from its free contents, addresses strictly rising. -/
abbrev Memory := List Host.Cell

/-- The reasons a step can stop the machine. There are none: what the spec calls a fault sets `STATUS` and the machine
goes on taking transactions (`60_exceptions.md` R166, R170; `20_memory.md` R68), no access of the host faults (R53,
R54), and no command reaches an index outside `BUF` (R61). Log entry 5 (safe). -/
inductive Fault where
deriving DecidableEq, Repr

/-- The reasons a step can be refused. -/
inductive Refusal where
  /-- Raised by an arm of `exec` whose instruction has no meaning yet. No arm raises it in this model. Safe. -/
  | notModelled (mnemonic : String)
deriving DecidableEq, Repr

/-- The seven components of R20, then the model's own fields. -/
structure State where
  /-- `KEY`, 16 bytes (R21). -/
  key : Block
  /-- `IV`, 16 bytes (R22). -/
  iv : Block
  /-- `BS`, the codec's block size (R24). -/
  bs : BitVec 8
  /-- `LEN`, `256 * LEN_H + LEN_L` (R25). -/
  len : BitVec 16
  /-- `RESULT`, the pad length of the last successful PAD (R26). -/
  result : BitVec 8
  /-- `STATUS.FAULT` (R27). -/
  fault : Bool
  /-- `STATUS.CODE` (R27). -/
  code : BitVec 4
  /-- `BUF` (R23): the bytes that differ from `fill`. Read it through `State.readBuf`. -/
  buf : Memory
  /-- The MODEL's own: the free contents `BUF` took at the last reset or CLR (log entry 2). -/
  fill : List Byte
  /-- The MODEL's own: how many resets and CLRs there have been, so that the free contents of `BUF` are fresh each time
  (log entry 2). -/
  resets : Nat
  /-- The MODEL's own: the parameter `CAP` of R8, which no step writes (log entry 1). -/
  cap : Cap
  /-- The MODEL's own: the transactions the host has still to send, oldest first (R203; log entry 4). -/
  pending : List HostEvent
  /-- The MODEL's own: the bytes the host's reads have returned, oldest first (R203; log entry 4). -/
  observed : List Byte
deriving DecidableEq, Repr

/-- A machine of capacity `cap` right after reset (R33), with free buffer contents `fill` and an idle host. -/
def State.resetWith (cap : Cap) (fill : List Byte) : State where
  key := Vector.replicate 16 0x00
  iv := Vector.replicate 16 0x00
  bs := 16
  len := 0
  result := 0
  fault := false
  code := 0
  buf := []
  fill := fill
  resets := 0
  cap := cap
  pending := []
  observed := []

/-- The machine right after reset (R33, R190): the capacity and the contents of `BUF` are the free constants of
`Config` (log entries 1 and 2), and the host has sent nothing (log entry 4). -/
def State.reset : State := State.resetWith Config.cap Config.powerOnBuf

end Sys2Proof.Machine
end

