-- ==== Sys2Proof/Machine/Flags.lean ====
section
/-! DEFINITION. Machine/Flags.lean: the outcome codes of `60_exceptions.md` R160, in the two classes of R161, and the
`STATUS` byte of `10_state.md` R27. -/

namespace Sys2Proof.Machine

/-- The result codes: they leave `STATUS.FAULT = 0` (R161). -/
inductive ResultCode where
  | ok
  | invalidPadding
deriving DecidableEq, Repr

/-- The faults: they set `STATUS.FAULT = 1` (R161). -/
inductive FaultCode where
  | invalidLength
  | illegalCommand
  | invalidBlockSize
  | capacity
deriving DecidableEq, Repr

/-- The code of a result (R160). -/
def ResultCode.bits : ResultCode → BitVec 4
  | .ok => 0
  | .invalidPadding => 2

/-- The code of a fault (R160). -/
def FaultCode.bits : FaultCode → BitVec 4
  | .invalidLength => 1
  | .illegalCommand => 3
  | .invalidBlockSize => 4
  | .capacity => 5

/-- The `STATUS` byte (R27): `FAULT` in bit 7, bits 6:4 zero, `CODE` in bits 3:0. -/
def statusByte (s : State) : Byte := (BitVec.ofBool s.fault ++ 0#3) ++ s.code

end Sys2Proof.Machine
end

