-- ==== Sys2Proof/Machine/Ops.lean ====
section
/-! DEFINITION. Machine/Ops.lean: the named operations over `BUF` and the registers, taking a fault, the reset
transition, and the procedures that commands share: `Pad`, `Strippable`, `Strip` (`40_padding_codec.md` R101, R105,
R106), the block loops (`41_block_chaining.md`) and the tests at issue (`30_encoding.md` R90). -/

namespace Sys2Proof.Machine

/-! ### Bytes of `BUF` -/

/-- What an index of `BUF` reads as while nothing has written it since the last reset or CLR: the free contents
(`10_state.md` R23; log entry 2). -/
def unwrittenByte (fill : List Byte) (a : Nat) : Byte := fill.getD a 0

/-- The byte listed for an address. -/
def Memory.lookup : Memory → Nat → Option Byte
  | [], _ => none
  | c :: m, a => if c.1 = a then some c.2 else Memory.lookup m a

/-- The memory without an entry for an address. -/
def Memory.erase (m : Memory) (a : Nat) : Memory := m.filter fun c => c.1 ≠ a

/-- A new entry before the first entry of a greater address. -/
def Memory.insert : Memory → Nat → Byte → Memory
  | [], a, v => [(a, v)]
  | c :: m, a, v => if a < c.1 then (a, v) :: c :: m else c :: Memory.insert m a v

/-- The byte at an address. -/
def Memory.read (fill : List Byte) (m : Memory) (a : Nat) : Byte := (m.lookup a).getD (unwrittenByte fill a)

/-- Store one byte, keeping the canonical form: a byte equal to the free contents is not listed. -/
def Memory.write (fill : List Byte) (m : Memory) (a : Nat) (v : Byte) : Memory :=
  if v = unwrittenByte fill a then m.erase a else (m.erase a).insert a v

/-- Store a byte sequence, lower index first. -/
def Memory.writeList (fill : List Byte) (m : Memory) (a : Nat) : List Byte → Memory
  | [] => m
  | v :: vs => Memory.writeList fill (Memory.write fill m a v) (a + 1) vs

/-- The canonical form: addresses strictly rising, no entry equal to what an unlisted address reads as. -/
abbrev Memory.wf (fill : List Byte) (m : Memory) : Prop :=
  m.Pairwise (fun c d => c.1 < d.1) ∧ ∀ c ∈ m, c.2 ≠ unwrittenByte fill c.1

/-- `BUF[a]` (`00_scope.md` R14). -/
def State.readBuf (s : State) (a : Nat) : Byte := Memory.read s.fill s.buf a

/-- `BUF[a] <- v` (R14). -/
def State.writeBuf (s : State) (a : Nat) (v : Byte) : State := { s with buf := Memory.write s.fill s.buf a v }

/-- `MemRead(a, n)` (R14). -/
def State.readBytes (s : State) (a n : Nat) : List Byte := (List.range n).map fun j => s.readBuf (a + j)

/-- `MemWrite(a, n, v)` (R14), lower index first. -/
def State.writeBytes (s : State) (a : Nat) (vs : List Byte) : State :=
  { s with buf := Memory.writeList s.fill s.buf a vs }

/-- Block `i`: `BUF[16*i +: 16]` (`20_memory.md` R56). -/
def State.readBlock (s : State) (i : Nat) : Block := Vector.ofFn fun j => s.readBuf (16 * i + j.val)

/-- `MemWrite(16*i, 16, b)` (R56). -/
def State.writeBlock (s : State) (i : Nat) (b : Block) : State := s.writeBytes (16 * i) b.toList

/-- The message `BUF[0 +: LEN]` (`00_scope.md` section 6). -/
def State.message (s : State) : List Byte := s.readBytes 0 s.len.toNat

/-- Bytewise exclusive-or of two 16-byte values (`00_scope.md` R13). -/
def xorBlock (a b : Block) : Block := Vector.ofFn fun j => a[j] ^^^ b[j]

/-! ### Register updates -/

/-- `LEN <- n`, both halves together (`10_state.md` R25). -/
def State.setLen (s : State) (n : Nat) : State := { s with len := BitVec.ofNat 16 n }

/-- `RESULT <- p` (R26). -/
def State.setResult (s : State) (p : Nat) : State := { s with result := BitVec.ofNat 8 p }

/-- `return Result(c)` (`00_scope.md` R15): the code is written, `STATUS.FAULT` is left as it is. -/
def State.finish (s : State) (c : ResultCode) : State := { s with code := c.bits }

/-- `raise Fault(c)`, taking a fault (`60_exceptions.md` R166): `STATUS.FAULT <- 1`, `STATUS.CODE <- c`, nothing else
is saved or changed. There is no return from a fault (R171). -/
def State.raiseFault (s : State) (c : FaultCode) : State := { s with fault := true, code := c.bits }

/-- The reset transition (`70_reset_and_hazards.md` R190; `42_system.md` R150; `10_state.md` R33), the one way out of
a latched fault (R171). The new contents of `BUF` are free (log entry 2); the host's side and `CAP` are not the
engine's to reset. -/
def State.resetEngine (s : State) : State :=
  { s with
    key := Vector.replicate 16 0x00
    iv := Vector.replicate 16 0x00
    bs := 16
    len := 0
    result := 0
    fault := false
    code := 0
    buf := []
    fill := Config.clearedBuf s
    resets := s.resets + 1 }

/-! ### The tests at issue -/

/-- What stands between a `CMD` write of a legal code other than CLR's and the command's own rule (`30_encoding.md`
R90): ignored while a fault is latched (`60_exceptions.md` R170), `Capacity` when `LEN > CAP` (R167 a). -/
def issued (command : State → State) (s : State) : State :=
  if s.fault then s
  else if s.cap.val < s.len.toNat then s.raiseFault .capacity
  else command s

/-- A `CMD` write of a reserved code (`30_encoding.md` R84, R90): ignored while a fault is latched. -/
def illegalCommand (s : State) : State := if s.fault then s else s.raiseFault .illegalCommand

/-! ### The padding codec's procedures -/

/-- `p <- bs - (LEN mod bs)` (`40_padding_codec.md` R101). -/
def padLength (bs n : Nat) : Nat := bs - n % bs

/-- `Pad(bs)` (R101): the sum is taken without wrap-around, and the capacity test stands before any write. Answers the
pad length and the state with the padded message. -/
def padMessage (bs : Nat) (s : State) : Except FaultCode (Nat × State) :=
  let n := s.len.toNat
  let p := padLength bs n
  if s.cap.val < n + p then .error .capacity
  else .ok (p, (s.writeBytes n (List.replicate p (BitVec.ofNat 8 p))).setLen (n + p))

/-- `Strippable(bs)` (R105): `some p` for `yes(p)`, `none` for `no`. -/
def strippable (bs : Nat) (s : State) : Option Nat :=
  let n := s.len.toNat
  let p := (s.readBuf (n - 1)).toNat
  if n = 0 then none
  else if n % bs ≠ 0 then none
  else if p = 0 ∨ bs < p then none
  else if (List.range p).all fun j => (s.readBuf (n - 1 - j)).toNat = p then some p
  else none

/-- `Strip(bs)` (R106): lowers `LEN` or does nothing; no byte of `BUF` is written. -/
def stripPadding (bs : Nat) (s : State) : State :=
  match strippable bs s with
  | some p => s.setLen (s.len.toNat - p)
  | none => s

/-- The precondition of PAD, STRIP and VALIDATE (`60_exceptions.md` R165): `BS = 0` faults before anything else. -/
def withBlockSize (command : Nat → State → State) (s : State) : State :=
  if s.bs.toNat = 0 then s.raiseFault .invalidBlockSize else command s.bs.toNat s

/-! ### The chainer's procedures -/

/-- An encrypt command's frame: `Pad(16)`, whose pad length is dropped, then the block loop on the padded message
(`41_block_chaining.md` R122, R130). -/
def paddedThen (loop : State → State) (s : State) : State :=
  match padMessage 16 s with
  | .error c => s.raiseFault c
  | .ok (_, t) => (loop t).finish .ok

/-- A decrypt command's frame: the length test (R126), the block loop, then `Strip(16)` (R124, R134). -/
def alignedThen (loop : State → State) (s : State) : State :=
  if s.len.toNat = 0 ∨ s.len.toNat % 16 ≠ 0 then s.raiseFault .invalidLength
  else (stripPadding 16 (loop s)).finish .ok

/-- The block loop of the ECB commands on blocks 0 to `n - 1` in ascending order (R122, R124): `f` is `E(KEY, .)` or
`D(KEY, .)`. -/
def ecbLoop (f : Block → Block) (s : State) : Nat → State
  | 0 => s
  | n + 1 =>
    let t := ecbLoop f s n
    t.writeBlock n (f (t.readBlock n))

/-- The block loop of CBC_ENC (R130); the second component is `CHAIN`, which starts at `IV` (`10_state.md` R30). -/
def cbcEncLoop (f : Block → Block) (s : State) : Nat → State × Block
  | 0 => (s, s.iv)
  | n + 1 =>
    let t := cbcEncLoop f s n
    let c := f (xorBlock (t.1.readBlock n) t.2)
    (t.1.writeBlock n c, c)

/-- The block loop of CBC_DEC (R134): `CHAIN` takes the ciphertext block, saved before it is overwritten. -/
def cbcDecLoop (f : Block → Block) (s : State) : Nat → State × Block
  | 0 => (s, s.iv)
  | n + 1 =>
    let t := cbcDecLoop f s n
    let c := t.1.readBlock n
    (t.1.writeBlock n (xorBlock (f c) t.2), c)

/-- The number of blocks of the message, `LEN div 16` (R120). -/
def State.blocks (s : State) : Nat := s.len.toNat / 16

end Sys2Proof.Machine
end

