-- ==== Sys2Proof/Machine/Chainer.lean ====
section
/-! DEFINITION. Machine/Chainer.lean: the chainer's commands ECB_ENC, ECB_DEC, CBC_ENC and CBC_DEC
(`41_block_chaining.md` R122, R124, R130, R134). Each is written over any primitive and then taken at the machine's
own `Config.E` or `Config.D`, so that a claim under `PrimInverse` (`00_scope.md` R10) can name its primitive. -/

namespace Sys2Proof.Machine

/-- `ECB_ENC` after the tests at issue (R122). -/
def ecbEncCommand (E : Prim) (s : State) : State :=
  paddedThen (fun t => ecbLoop (E t.key) t t.blocks) s

/-- `ECB_ENC` (R122). -/
def execEcbEnc (s : State) : Host.Outcome State Fault Refusal := .next (issued (ecbEncCommand Config.E) s)

/-- `ECB_DEC` after the tests at issue (R124). -/
def ecbDecCommand (D : Prim) (s : State) : State :=
  alignedThen (fun t => ecbLoop (D t.key) t t.blocks) s

/-- `ECB_DEC` (R124). -/
def execEcbDec (s : State) : Host.Outcome State Fault Refusal := .next (issued (ecbDecCommand Config.D) s)

/-- `CBC_ENC` after the tests at issue (R130). -/
def cbcEncCommand (E : Prim) (s : State) : State :=
  paddedThen (fun t => (cbcEncLoop (E t.key) t t.blocks).1) s

/-- `CBC_ENC` (R130). -/
def execCbcEnc (s : State) : Host.Outcome State Fault Refusal := .next (issued (cbcEncCommand Config.E) s)

/-- `CBC_DEC` after the tests at issue (R134). -/
def cbcDecCommand (D : Prim) (s : State) : State :=
  alignedThen (fun t => (cbcDecLoop (D t.key) t t.blocks).1) s

/-- `CBC_DEC` (R134). -/
def execCbcDec (s : State) : Host.Outcome State Fault Refusal := .next (issued (cbcDecCommand Config.D) s)

end Sys2Proof.Machine
end

