-- ==== Sys2Proof/Machine/Codec.lean ====
section
/-! DEFINITION. Machine/Codec.lean: the padding codec's commands PAD, STRIP and VALIDATE
(`40_padding_codec.md` R103, R108, R112). -/

namespace Sys2Proof.Machine

/-- What `PAD` does with a legal block size (R103). -/
def padRule (bs : Nat) (s : State) : State :=
  match padMessage bs s with
  | .error c => s.raiseFault c
  | .ok (p, t) => (t.setResult p).finish .ok

/-- `PAD` after the tests at issue (R103). -/
def padCommand (s : State) : State := withBlockSize padRule s

/-- `PAD` (R103). -/
def execPad (s : State) : Host.Outcome State Fault Refusal := .next (issued padCommand s)

/-- What `STRIP` does with a legal block size (R108). -/
def stripRule (bs : Nat) (s : State) : State := (stripPadding bs s).finish .ok

/-- `STRIP` after the tests at issue (R108). -/
def stripCommand (s : State) : State := withBlockSize stripRule s

/-- `STRIP` (R108). -/
def execStrip (s : State) : Host.Outcome State Fault Refusal := .next (issued stripCommand s)

/-- What `VALIDATE` does with a legal block size (R112). -/
def validateRule (bs : Nat) (s : State) : State :=
  match strippable bs s with
  | some p => (s.setLen (s.len.toNat - p)).finish .ok
  | none => s.finish .invalidPadding

/-- `VALIDATE` after the tests at issue (R112). -/
def validateCommand (s : State) : State := withBlockSize validateRule s

/-- `VALIDATE` (R112). -/
def execValidate (s : State) : Host.Outcome State Fault Refusal := .next (issued validateCommand s)

end Sys2Proof.Machine
end

