-- ==== Sys2Proof/Machine/System.lean ====
section
/-! DEFINITION. Machine/System.lean: the system command CLR (`42_system.md` R150). -/

namespace Sys2Proof.Machine

/-- `CLR` (R150): taken also while a fault is latched, without the test of `LEN`; it cannot fault. -/
def execClr (s : State) : Host.Outcome State Fault Refusal := .next s.resetEngine

end Sys2Proof.Machine
end

