-- ==== Sys2Proof/Machine/Operands.lean ====
section
/-! DEFINITION. Machine/Operands.lean: the register map of `20_memory.md` R52 and the host's access to every register
(R53 to R55). A command's own operands are implicit (`30_encoding.md` R83) and are read by the operations of Ops. -/

namespace Sys2Proof.Machine

/-- The offset of a register (R52). -/
def Reg.offset : Reg → Addr
  | .cmd => 0x00000
  | .status => 0x00001
  | .bs => 0x00002
  | .result => 0x00003
  | .lenL => 0x00004
  | .lenH => 0x00005
  | .capL => 0x00006
  | .capH => 0x00007
  | .key j => BitVec.ofNat 17 (0x00010 + j.val)
  | .iv j => BitVec.ofNat 17 (0x00020 + j.val)
  | .buf a => BitVec.ofNat 17 (0x10000 + a)

/-- What the map has at offset `n`; `none` is a reserved offset (R52, R54). -/
def locateNat (cap n : Nat) : Option Reg :=
  if n = 0x00000 then some .cmd
  else if n = 0x00001 then some .status
  else if n = 0x00002 then some .bs
  else if n = 0x00003 then some .result
  else if n = 0x00004 then some .lenL
  else if n = 0x00005 then some .lenH
  else if n = 0x00006 then some .capL
  else if n = 0x00007 then some .capH
  else if h : 0x00010 ≤ n ∧ n ≤ 0x0001F then some (.key ⟨n - 0x00010, by omega⟩)
  else if h : 0x00020 ≤ n ∧ n ≤ 0x0002F then some (.iv ⟨n - 0x00020, by omega⟩)
  else if 0x10000 ≤ n ∧ n < 0x10000 + cap then some (.buf (n - 0x10000))
  else none

/-- The register at an address of the register space. -/
def locate (cap : Nat) (addr : Addr) : Option Reg := locateNat cap addr.toNat

/-- The byte a host read of a register returns (R53); `CMD` and `KEY` are write only (R55). -/
def readReg (s : State) : Reg → Byte
  | .cmd => 0x00
  | .status => statusByte s
  | .bs => s.bs
  | .result => s.result
  | .lenL => s.len.extractLsb' 0 8
  | .lenH => s.len.extractLsb' 8 8
  | .capL => BitVec.ofNat 8 (s.cap.val % 256)
  | .capH => BitVec.ofNat 8 (s.cap.val / 256)
  | .key _ => 0x00
  | .iv j => s.iv[j]
  | .buf a => s.readBuf a

/-- `HostRead(addr)` (R53): reserved offsets read `0x00` (R54). -/
def hostRead (s : State) (addr : Addr) : Byte :=
  match locate s.cap.val addr with
  | some r => readReg s r
  | none => 0x00

/-- A host write to a register other than `CMD` (R53): one byte is stored; read-only registers ignore it (R55). A
write to `CMD` stores nothing (`10_state.md` R28): `hostWrite` gives it to the issue procedure. -/
def writeReg (s : State) (v : Byte) : Reg → State
  | .cmd => s
  | .status => s
  | .bs => { s with bs := v }
  | .result => s
  | .lenL => { s with len := s.len.extractLsb' 8 8 ++ v }
  | .lenH => { s with len := v ++ s.len.extractLsb' 0 8 }
  | .capL => s
  | .capH => s
  | .key j => { s with key := s.key.set j v }
  | .iv j => { s with iv := s.iv.set j v }
  | .buf a => s.writeBuf a v

/-- The byte a read returned is what the host has observed (`70_reset_and_hazards.md` R203). -/
def State.observe (s : State) (v : Byte) : State := { s with observed := s.observed ++ [v] }

end Sys2Proof.Machine
end

