-- ==== Sys2Proof/Machine/Issue.lean ====
section
/-! DEFINITION. Machine/Issue.lean: the issue procedure (`30_encoding.md` R90) and the host's transactions
(`20_memory.md` R53) with the reset input (`70_reset_and_hazards.md` R190). -/

namespace Sys2Proof.Machine

/-- `Issue(c)` (R90): a command byte runs its command, any other byte is a reserved code. -/
def issueByte (c : Byte) (s : State) : Host.Outcome State Fault Refusal :=
  match decode c with
  | .ok i => exec i s
  | .error _ => .next (illegalCommand s)

/-- `HostWrite(addr, v)` (R53). -/
def hostWrite (addr : Addr) (v : Byte) (s : State) : Host.Outcome State Fault Refusal :=
  match locate s.cap.val addr with
  | some .cmd => issueByte v s
  | some r => .next (writeReg s v r)
  | none => .next s

/-- One event at the engine's outside. -/
def hostEvent (e : HostEvent) (s : State) : Host.Outcome State Fault Refusal :=
  match e with
  | .write addr v => hostWrite addr v s
  | .read addr => .next (s.observe (hostRead s addr))
  | .reset => .next s.resetEngine

/-- The next event is taken whole, before the one after it (R57, R63); with none the engine is idle (R50,
`42_system.md` R152). -/
def nextEvent (s : State) : Host.Outcome State Fault Refusal :=
  match s.pending with
  | [] => .next s
  | e :: rest => hostEvent e { s with pending := rest }

/-- The event that issues the command byte `w`: `HostWrite(0x00000, w)` (`30_encoding.md` R80). -/
def commandEvent (w : Nat) : HostEvent := .write 0x00000 (BitVec.ofNat 8 w)

end Sys2Proof.Machine
end

