-- ==== Sys2Proof/Machine/Step.lean ====
section
/-! DEFINITION. Machine/Step.lean: one step is one event of the host. -/

namespace Sys2Proof.Machine

/-- One step of the machine (log entry 4). -/
def step (s : State) : Host.Outcome State Fault Refusal := nextEvent s

/-- The state whose next step issues the command word `w`: the host's next transaction is `HostWrite(CMD, w)`. The
instruction is one byte whatever `nbits` says (`30_encoding.md` R80; log entry 9). -/
def State.withFetchWord (s : State) (_nbits w : Nat) : State := { s with pending := commandEvent w :: s.pending }

end Sys2Proof.Machine
end

