-- ==== Sys2Proof/WellFormed.lean ====
section
/-! DEFINITION. WellFormed.lean: the ranges the spec puts on what a programmer can write.
A command has no operand (`30_encoding.md` R83), so every command is well formed; the checks are those of the
register map (`20_memory.md` R52) and of the pseudo-instructions (R89). -/

namespace Sys2Proof

/-- R83: "No command has an operand field or an immediate", so there is nothing to check. -/
def Instr.wf : Instr → Bool
  | .pad => true
  | .strip => true
  | .validate => true
  | .ecbEnc => true
  | .ecbDec => true
  | .cbcEnc => true
  | .cbcDec => true
  | .clr => true

/-- `BUF[a]` exists for `a < CAP` (R52). -/
def Reg.wf (cap : Nat) : Reg → Bool
  | .buf a => a < cap
  | .cmd | .status | .bs | .result | .lenL | .lenH | .capL | .capH | .key _ | .iv _ => true

/-- The side conditions of R88 and R89 on a statement that the host comes to when `LEN` is `len`: `GETMSG` is `RDBUF 0, LEN`
after `GETLEN`, so that it has the bound of `RDBUF`. -/
def Stmt.wf (cap len : Nat) : Stmt → Bool
  | .wr r _ => r.wf cap
  | .rd r => r.wf cap
  | .cmd i => i.wf
  | .setLen n => n ≤ 65535
  | .setBs n => n ≤ 255
  | .ldKey bytes => bytes.length = 16
  | .ldIv bytes => bytes.length = 16
  | .ldBuf a bytes => a + bytes.length ≤ cap
  | .load bytes => bytes.length ≤ cap
  | .getLen => true
  | .rdBuf a m => a + m ≤ cap
  | .getMsg => len ≤ cap

end Sys2Proof
end

