-- ==== Sys2Proof/Machine/Assembler.lean ====
section
/-! DEFINITION. Machine/Assembler.lean: the transactions of each statement (`30_encoding.md` R88) and of each
pseudo-instruction (R89), and the host that runs them one after another (`70_reset_and_hazards.md` R203). -/

namespace Sys2Proof.Machine

/-- `WR reg, v` (R88). -/
def writeTo (r : Reg) (v : Byte) : HostEvent := .write (Reg.offset r) v

/-- `RD reg` (R88). -/
def readFrom (r : Reg) : HostEvent := .read (Reg.offset r)

/-- Writes of a byte list to `place 0`, `place 1`, … in ascending order. -/
def writeEach (place : Nat → Reg) (bytes : List Byte) : List HostEvent :=
  bytes.mapIdx fun j b => writeTo (place j) b

/-- `SETLEN n` (R89). -/
def expandSetLen (n : Nat) : List HostEvent :=
  [writeTo .lenL (BitVec.ofNat 8 (n % 256)), writeTo .lenH (BitVec.ofNat 8 (n / 256))]

/-- `LDBUF a, …` (R89). -/
def expandLdBuf (a : Nat) (bytes : List Byte) : List HostEvent := writeEach (fun j => .buf (a + j)) bytes

/-- `RDBUF a, m` (R89). -/
def expandRdBuf (a m : Nat) : List HostEvent := (List.range m).map fun j => readFrom (.buf (a + j))

/-- `GETLEN` (R89). -/
def expandGetLen : List HostEvent := [readFrom .lenL, readFrom .lenH]

/-- The transactions of a statement that do not depend on what the host reads (R88, R89): all of them, but for the `RDBUF`
of `GETMSG`. -/
def Stmt.transactions : Stmt → List HostEvent
  | .wr r v => [writeTo r v]
  | .rd r => [readFrom r]
  | .cmd i => [writeTo .cmd (encode i)]
  | .setLen n => expandSetLen n
  | .setBs n => [writeTo .bs (BitVec.ofNat 8 n)]
  | .ldKey bytes => writeEach (fun j => .key (Fin.ofNat 16 j)) bytes
  | .ldIv bytes => writeEach (fun j => .iv (Fin.ofNat 16 j)) bytes
  | .ldBuf a bytes => expandLdBuf a bytes
  | .load bytes => expandLdBuf 0 bytes ++ expandSetLen bytes.length
  | .getLen => expandGetLen
  | .rdBuf a m => expandRdBuf a m
  | .getMsg => expandGetLen

/-- The transactions that follow once the host has read the length `len`: the `RDBUF 0, LEN` of `GETMSG` (R89). -/
def Stmt.followUp (len : Nat) : Stmt → List HostEvent
  | .getMsg => expandRdBuf 0 len
  | .wr _ _ | .rd _ | .cmd _ | .setLen _ | .setBs _ | .ldKey _ | .ldIv _ | .ldBuf _ _ | .load _ | .getLen
  | .rdBuf _ _ => []

/-- The whole expansion of a statement (R88, R89), `len` being the length that its `GETLEN` reads. -/
def Stmt.expand (len : Nat) (t : Stmt) : List HostEvent := Stmt.transactions t ++ Stmt.followUp len t

/-- A run (R203): the host's events are sent to the machine one after another. -/
def runEvents (events : List HostEvent) (s : State) : Host.Outcome State Fault Refusal :=
  Host.Core.run Sys2Proof.core events.length { s with pending := events }

/-- What comes after an outcome, where it is a next state. -/
def andThen (o : Host.Outcome State Fault Refusal) (next : State → Host.Outcome State Fault Refusal) :
    Host.Outcome State Fault Refusal :=
  match o with
  | .next s => next s
  | .fault f => .fault f
  | .refused r => .refused r

/-- The value of `GETLEN` (R89), `256 * LEN_H + LEN_L`, from the last two bytes that the host has observed. -/
def State.lengthRead (s : State) : Nat :=
  let n := s.observed.length
  256 * (s.observed.getD (n - 1) 0x00).toNat + (s.observed.getD (n - 2) 0x00).toNat

/-- The host runs one statement: it sends the transactions and then those that follow from the length it has read
(log entry 10). -/
def runStmt (t : Stmt) (s : State) : Host.Outcome State Fault Refusal :=
  andThen (runEvents (Stmt.transactions t) s) fun u => runEvents (Stmt.followUp u.lengthRead t) u

/-- The host runs a program, one statement after another (R88). -/
def runProgram : List Stmt → State → Host.Outcome State Fault Refusal
  | [], s => .next s
  | t :: ts, s => andThen (runStmt t s) (runProgram ts)

end Sys2Proof.Machine
end

