-- ==== Sys2Proof/Safety.lean ====
section
/-! DEFINITION. Safety.lean: the terms in which claims are stated: legal states, the end of a run, the named hypothesis
`PrimInverse`, valid padding, the closed forms of the chainer and what a command leaves alone. -/

namespace Sys2Proof.Machine

/-! ### Legal states and runs -/

/-- The legal contents of `STATUS` (`10_state.md` R35; `60_exceptions.md` R161): a latched fault has one of the four
fault codes, no latched fault has one of the two result codes. -/
def State.statusLegal (s : State) : Prop :=
  if s.fault then s.code = 1 ∨ s.code = 3 ∨ s.code = 4 ∨ s.code = 5 else s.code = 0 ∨ s.code = 2

/-- The invariant: `BUF` is in canonical form and lists no index outside `BUF`, and `STATUS` is legal. -/
structure State.Inv (s : State) : Prop where
  canonical : Memory.wf s.fill s.buf
  inBuffer : ∀ c ∈ s.buf, c.1 < s.cap.val
  status : s.statusLegal

/-- "A run has gone wrong when `STATUS.FAULT = 1` in its end state" (`70_reset_and_hazards.md` R203). -/
def State.goneWrong (s : State) : Prop := s.fault = true

/-- The next state of an outcome, or the state before where there is none. -/
def stateAfter (s : State) : Host.Outcome State Fault Refusal → State
  | .next t => t
  | .fault _ => s
  | .refused _ => s

/-! ### The primitive -/

/-- `PrimInverse` (`00_scope.md` R10), to be taken as a hypothesis by the claims that need it. -/
def PrimInverse (E D : Prim) : Prop := ∀ k b, D k (E k b) = b

/-! ### Padding -/

/-- A message of `n` bytes, its byte `a` being `byteAt a`, ends in valid padding of length `p` for block size `bs`: the
conditions of `40_padding_codec.md` R105, written as a property. -/
def ValidPadding (bs n : Nat) (byteAt : Nat → Byte) (p : Nat) : Prop :=
  0 < n ∧ n % bs = 0 ∧ 1 ≤ p ∧ p ≤ bs ∧ ∀ j < p, (byteAt (n - 1 - j)).toNat = p

/-- Byte `a` of `BUF` once the message is padded for block size `bs` (R101): `p` bytes of value `p` from index `LEN`. -/
def State.paddedByte (s : State) (bs a : Nat) : Byte :=
  if s.len.toNat ≤ a ∧ a < s.len.toNat + padLength bs s.len.toNat then BitVec.ofNat 8 (padLength bs s.len.toNat)
  else s.readBuf a

/-- Block `i` of the message padded for the chainer (`41_block_chaining.md` R120). -/
def State.paddedBlock (s : State) (i : Nat) : Block := Vector.ofFn fun j => s.paddedByte 16 (16 * i + j.val)

/-- The number of blocks of the padded message: `LEN div 16 + 1` (R122). -/
def State.paddedBlocks (s : State) : Nat := s.len.toNat / 16 + 1

/-! ### Closed forms of the chainer -/

/-- Byte `a` of a buffer whose first `n` blocks are `out 0`, …, `out (n - 1)` and which reads as `rest` above. -/
def blocksOver (n : Nat) (out : Nat → Block) (rest : Nat → Byte) (a : Nat) : Byte :=
  if a < 16 * n then (out (a / 16))[a % 16]'(Nat.mod_lt a (by decide)) else rest a

/-- `C_0 = E(KEY, P_0 ^ IV)` and `C_i = E(KEY, P_i ^ C_(i-1))` (R130); `f` is `E(KEY, .)`. -/
def cbcCipher (f : Block → Block) (iv : Block) (plain : Nat → Block) : Nat → Block
  | 0 => f (xorBlock (plain 0) iv)
  | i + 1 => f (xorBlock (plain (i + 1)) (cbcCipher f iv plain i))

/-- What block `i` is chained with: `IV` for block 0, else the previous ciphertext block (`10_state.md` R30). -/
def chained (iv : Block) (cipher : Nat → Block) : Nat → Block
  | 0 => iv
  | i + 1 => cipher i

/-- `P_0 = D(KEY, C_0) ^ IV` and `P_i = D(KEY, C_i) ^ C_(i-1)` (R134); `f` is `D(KEY, .)`. -/
def cbcPlain (f : Block → Block) (iv : Block) (cipher : Nat → Block) (i : Nat) : Block :=
  xorBlock (f (cipher i)) (chained iv cipher i)

/-! ### What a command leaves alone -/

/-- The operand registers `KEY`, `IV`, `BS` are unchanged, and so are the model's own fields. -/
def keepsOperands (s t : State) : Prop :=
  t.key = s.key ∧ t.iv = s.iv ∧ t.bs = s.bs ∧
  t.cap = s.cap ∧ t.fill = s.fill ∧ t.resets = s.resets ∧ t.pending = s.pending ∧ t.observed = s.observed

/-- Every byte of `BUF` is unchanged. -/
def keepsBuf (s t : State) : Prop := ∀ a, t.readBuf a = s.readBuf a

/-- `STATUS` is the result `OK`, with no fault latched (`60_exceptions.md` R160). -/
def State.isOk (s : State) : Prop := s.fault = false ∧ s.code = 0

/-- A command issued in this state reaches its own rule (`30_encoding.md` R90). -/
def State.accepts (s : State) : Prop := s.fault = false ∧ s.len.toNat ≤ s.cap.val

/-- The message padded for block size `bs` fits the buffer: `LEN + p <= CAP` with `p = bs - (LEN mod bs)`, the sum taken
without wrap-around (`40_padding_codec.md` R101). -/
def State.fits (s : State) (bs : Nat) : Prop := s.len.toNat + (bs - s.len.toNat % bs) ≤ s.cap.val

/-- The length a decrypt command needs: a non-zero multiple of 16 (`41_block_chaining.md` R126). -/
def State.wholeBlocks (s : State) : Prop := 0 < s.len.toNat ∧ s.len.toNat % 16 = 0

/-- Every engine register has the value of `10_state.md` R33. -/
def State.hasResetValues (s : State) : Prop :=
  s.key = Vector.replicate 16 0x00 ∧ s.iv = Vector.replicate 16 0x00 ∧ s.bs = 16 ∧ s.len = 0 ∧ s.result = 0 ∧
  s.fault = false ∧ s.code = 0 ∧ statusByte s = 0x00

/-- The seven command codes other than CLR's (`30_encoding.md` R90). -/
def ordinaryCodes : List Byte := [0x01, 0x02, 0x03, 0x10, 0x11, 0x12, 0x13]

/-- The outcome of writing `c` to `CMD`, as (`STATUS.FAULT`, `STATUS.CODE`): the table of `60_exceptions.md` R168, the
first row that applies. -/
def priorityOutcome (c : Byte) (s : State) : Bool × BitVec 4 :=
  let n := s.len.toNat
  let bs := s.bs.toNat
  if c = 0xFF then (false, 0)
  else if s.fault then (true, s.code)
  else if c ∉ ordinaryCodes then (true, 3)
  else if s.cap.val < n then (true, 5)
  else if (c = 0x01 ∨ c = 0x02 ∨ c = 0x03) ∧ bs = 0 then (true, 4)
  else if (c = 0x11 ∨ c = 0x13) ∧ (n = 0 ∨ n % 16 ≠ 0) then (true, 1)
  else if c = 0x01 ∧ s.cap.val < n + (bs - n % bs) then (true, 5)
  else if (c = 0x10 ∨ c = 0x12) ∧ s.cap.val < n + (16 - n % 16) then (true, 5)
  else if c = 0x03 ∧ strippable bs s = none then (false, 2)
  else (false, 0)

/-- An event that neither runs a chainer command nor resets the engine. -/
def HostEvent.sparesTheKey : HostEvent → Prop
  | .read _ => True
  | .reset => False
  | .write addr v => addr ≠ 0 ∨ (v ≠ 0x10 ∧ v ≠ 0x11 ∧ v ≠ 0x12 ∧ v ≠ 0x13 ∧ v ≠ 0xFF)

/-- The event is a host read. -/
def HostEvent.isRead : HostEvent → Bool
  | .read _ => true
  | .write _ _ => false
  | .reset => false

/-- `t` is `s` but for the host's transactions still to send. -/
def State.sending (s : State) (events : List HostEvent) : State := { s with pending := events }

end Sys2Proof.Machine
end

