-- ==== Sys2Proof/Certificates/Slice0/Obligations.lean ====
section
/-! DEFINITION. Certificates/Slice0/Obligations.lean: the statements for the provers. Each follows rules of spec/, which
its docstring names. -/

open Sys2Proof Sys2Proof.Machine

/-! ### Reset, decoding, issue -/

/-- `10_state.md` R33, `42_system.md` R150: the state after reset, and after the reset input and CLR whatever the state before,
a latched fault or a `LEN` above `CAP` included. Of the new contents of `BUF` nothing is said. The capacity and the host's
own side (the model's fields, log entries 1 and 4) are not the engine's to reset. -/
def Obligations.ResetAndClrGiveTheResetState : Prop :=
  State.reset.hasResetValues ∧
  (∀ s : State, hostWrite 0x00000 0xFF s = exec .clr s) ∧
  (∀ s : State, ∃ t, exec .clr s = .next t ∧ t.hasResetValues ∧ t.cap = s.cap ∧ t.pending = s.pending ∧
    t.observed = s.observed) ∧
  (∀ s : State, ∃ t, hostEvent .reset s = .next t ∧ t.hasResetValues ∧ t.cap = s.cap ∧ t.pending = s.pending ∧
    t.observed = s.observed)

/-- `30_encoding.md` R82: the eight command bytes, written out from the table, and the other 248, which are reserved. -/
def Obligations.CommandBytesDecodeAsTabulated : Prop :=
  decode 0b00000001#8 = .ok .pad ∧ decode 0b00000010#8 = .ok .strip ∧ decode 0b00000011#8 = .ok .validate ∧
  decode 0b00010000#8 = .ok .ecbEnc ∧ decode 0b00010001#8 = .ok .ecbDec ∧ decode 0b00010010#8 = .ok .cbcEnc ∧
  decode 0b00010011#8 = .ok .cbcDec ∧ decode 0b11111111#8 = .ok .clr ∧
  ∀ c : Byte, c ∉ ([0x01, 0x02, 0x03, 0x10, 0x11, 0x12, 0x13, 0xFF] : List Byte) → decode c = .error (.reservedCode c)

/-- `30_encoding.md` R80 to R84: decode and encode agree in both directions, so that a byte is a command exactly when it is
the encoding of one, and every other byte is rejected as a reserved code. -/
def Obligations.DecodeAndEncodeAgree : Prop :=
  (∀ i : Instr, i.wf = true → decode (encode i) = .ok i) ∧
  (∀ (c : Byte) (i : Instr), decode c = .ok i → c = encode i) ∧
  (∀ c : Byte, (∀ i : Instr, c ≠ encode i) → decode c = .error (.reservedCode c))

/-- A step takes the next event off the host's list and has its effect on the state without it; where that event writes a
command byte to `CMD`, the step is `exec` of the decoded command; with no event left the engine is idle
(`30_encoding.md` R80, `42_system.md` R152; the host's list is the model's own, log entry 4). -/
def Obligations.StepRunsTheDecodedCommand : Prop :=
  (∀ (s : State) (e : HostEvent) (rest : List HostEvent), s.pending = e :: rest →
    step s = hostEvent e (s.sending rest)) ∧
  (∀ (s : State) (c : Byte) (rest : List HostEvent) (i : Instr),
    s.pending = .write 0x00000 c :: rest → decode c = .ok i → i.wf = true → step s = exec i (s.sending rest)) ∧
  (∀ s : State, s.pending = [] → step s = .next s)

/-- `30_encoding.md` R90: the tests of `Issue(c)`, the effect of `HostWrite(0x00000, c)`, in their order. -/
def Obligations.IssueTestsInOrder : Prop :=
  ∀ (s : State) (c : Byte),
    (c = 0xFF → hostWrite 0x00000 c s = .next s.resetEngine) ∧
    (c ≠ 0xFF → s.fault = true → hostWrite 0x00000 c s = .next s) ∧
    (c ≠ 0xFF → s.fault = false → c ∉ ordinaryCodes →
      hostWrite 0x00000 c s = .next (s.raiseFault .illegalCommand)) ∧
    (s.fault = false → c ∈ ordinaryCodes → s.cap.val < s.len.toNat →
      hostWrite 0x00000 c s = .next (s.raiseFault .capacity)) ∧
    (s.accepts →
      (c = 0x01 → hostWrite 0x00000 c s = .next (padCommand s)) ∧
      (c = 0x02 → hostWrite 0x00000 c s = .next (stripCommand s)) ∧
      (c = 0x03 → hostWrite 0x00000 c s = .next (validateCommand s)) ∧
      (c = 0x10 → hostWrite 0x00000 c s = .next (ecbEncCommand Config.E s)) ∧
      (c = 0x11 → hostWrite 0x00000 c s = .next (ecbDecCommand Config.D s)) ∧
      (c = 0x12 → hostWrite 0x00000 c s = .next (cbcEncCommand Config.E s)) ∧
      (c = 0x13 → hostWrite 0x00000 c s = .next (cbcDecCommand Config.D s)))

/-! ### Outcomes and faults -/

/-- `60_exceptions.md` R166: what taking a fault changes, and that it changes nothing else; the `STATUS` byte of each fault
is that of R160. -/
def Obligations.TakingAFaultWritesStatusOnly : Prop :=
  (∀ (s : State) (c : FaultCode), s.raiseFault c = { s with fault := true, code := c.bits }) ∧
  (∀ s : State, statusByte (s.raiseFault .invalidLength) = 0x81 ∧ statusByte (s.raiseFault .illegalCommand) = 0x83 ∧
    statusByte (s.raiseFault .invalidBlockSize) = 0x84 ∧ statusByte (s.raiseFault .capacity) = 0x85)

/-- `30_encoding.md` R84, `60_exceptions.md` R164: a reserved byte raises `IllegalCommand` and changes nothing else while no
fault is latched, and is ignored while one is. -/
def Obligations.ReservedCodesRaiseIllegalCommand : Prop :=
  ∀ (s : State) (c : Byte), (∀ i : Instr, c ≠ encode i) →
    (s.fault = false → ∃ t, hostWrite 0x00000 c s = .next t ∧ statusByte t = 0x83 ∧
      t = { s with fault := true, code := 3 }) ∧
    (s.fault = true → hostWrite 0x00000 c s = .next s)

/-- `60_exceptions.md` R170: while a fault is latched a write to `CMD` of any byte but `0xFF` changes nothing, and every other
transaction does what it does with no fault latched (`20_memory.md` R68): the same registers and bytes, the same byte read,
but for a read of `STATUS` itself. -/
def Obligations.HaltedEngineIgnoresCommands : Prop :=
  ∀ s : State, s.fault = true →
    (∀ c : Byte, c ≠ 0xFF → hostWrite 0x00000 c s = .next s) ∧
    (∀ (addr : Addr) (v : Byte), addr ≠ 0 →
      ∃ t, hostWrite addr v { s with fault := false, code := 0 } = .next t ∧
        hostWrite addr v s = .next { t with fault := true, code := s.code }) ∧
    (∀ addr : Addr, addr ≠ 0x00001 → hostRead s addr = hostRead { s with fault := false, code := 0 } addr)

/-- `60_exceptions.md` R168: the one outcome of a `CMD` write, for every byte and every state. -/
def Obligations.OutcomeFollowsThePriorityTable : Prop :=
  ∀ (s : State) (c : Byte), ∃ t, hostWrite 0x00000 c s = .next t ∧ (t.fault, t.code) = priorityOutcome c s

/-- `60_exceptions.md` R169: a command that faults has written nothing but `STATUS`, and so has a VALIDATE that rejects. -/
def Obligations.FaultsArePrecise : Prop :=
  ∀ (i : Instr) (s t : State), s.fault = false → exec i s = .next t →
    (t.fault = true → t = { s with fault := true, code := t.code }) ∧
    (t.code = 2 → t = { s with code := 2 })

/-- `60_exceptions.md` R171: from a latched fault only CLR and the reset input lead to a state with none latched, and both
discard key, IV and lengths. -/
def Obligations.OnlyClrAndResetLeaveAFault : Prop :=
  ∀ (s t : State) (e : HostEvent), s.fault = true → hostEvent e s = .next t →
    (t.fault = false ↔ e = .write 0x00000 0xFF ∨ e = .reset) ∧ (t.fault = false → t.hasResetValues)

/-- `41_block_chaining.md` R126, `60_exceptions.md` R162: the decrypt commands fault with `InvalidLength` exactly when the
length is not a non-zero multiple of 16, before any byte is written; no other command raises it. -/
def Obligations.InvalidLengthIsTheDecryptPrecondition : Prop :=
  ∀ s : State, s.accepts →
    (¬ s.wholeBlocks → exec .ecbDec s = .next (s.raiseFault .invalidLength) ∧
      exec .cbcDec s = .next (s.raiseFault .invalidLength)) ∧
    (∀ (i : Instr) (t : State), exec i s = .next t → t.code = 1 →
      (i = .ecbDec ∨ i = .cbcDec) ∧ ¬ s.wholeBlocks)

/-- `60_exceptions.md` R163: `InvalidPadding` comes of VALIDATE only, exactly when the message does not end in valid padding;
STRIP, ECB_DEC and CBC_DEC report `OK` on such messages. -/
def Obligations.InvalidPaddingIsValidateRejecting : Prop :=
  ∀ s : State, s.accepts →
    (s.bs ≠ 0 → ∃ t, exec .validate s = .next t ∧ t.fault = false ∧
      (t.code = 2 ↔ ¬ ∃ p, ValidPadding s.bs.toNat s.len.toNat s.readBuf p)) ∧
    (∀ (i : Instr) (t : State), exec i s = .next t → t.code = 2 → i = .validate) ∧
    (s.bs ≠ 0 → ∃ t, exec .strip s = .next t ∧ t.isOk) ∧
    (s.wholeBlocks → (∃ t, exec .ecbDec s = .next t ∧ t.isOk) ∧ ∃ t, exec .cbcDec s = .next t ∧ t.isOk)

/-- `60_exceptions.md` R165: the codec commands fault with `InvalidBlockSize` when `BS = 0`; the chainer commands never do. -/
def Obligations.InvalidBlockSizeIsTheCodecPrecondition : Prop :=
  ∀ s : State, s.accepts →
    (s.bs = 0 → exec .pad s = .next (s.raiseFault .invalidBlockSize) ∧
      exec .strip s = .next (s.raiseFault .invalidBlockSize) ∧
      exec .validate s = .next (s.raiseFault .invalidBlockSize)) ∧
    (∀ (i : Instr) (t : State), exec i s = .next t → t.code = 4 →
      (i = .pad ∨ i = .strip ∨ i = .validate) ∧ s.bs = 0)

/-- `60_exceptions.md` R167: `Capacity` at issue, for every command but CLR, and from `Pad(bs)` inside PAD, ECB_ENC and
CBC_ENC, with the sum taken as a natural number. -/
def Obligations.CapacityAtIssueAndInPad : Prop :=
  ∀ s : State, s.fault = false →
    (s.cap.val < s.len.toNat → ∀ i : Instr, i ≠ .clr → exec i s = .next (s.raiseFault .capacity)) ∧
    (s.len.toNat ≤ s.cap.val →
      (s.bs ≠ 0 → ¬ s.fits s.bs.toNat → exec .pad s = .next (s.raiseFault .capacity)) ∧
      (¬ s.fits 16 → exec .ecbEnc s = .next (s.raiseFault .capacity) ∧
        exec .cbcEnc s = .next (s.raiseFault .capacity))) ∧
    (∀ (i : Instr) (t : State), exec i s = .next t → t.code = 5 →
      i ≠ .clr ∧ (s.cap.val < s.len.toNat ∨ (i = .pad ∧ ¬ s.fits s.bs.toNat) ∨
        ((i = .ecbEnc ∨ i = .cbcEnc) ∧ ¬ s.fits 16)))

/-! ### The padding codec -/

/-- `40_padding_codec.md` R101: `Pad(bs)` faults without room, else writes `p` bytes of value `p` at `LEN`, raises `LEN` by
`p`, returns `p` and changes nothing else. -/
def Obligations.PadProcedureAppends : Prop :=
  ∀ (s : State) (bs : Nat), 1 ≤ bs → bs ≤ 255 → s.len.toNat ≤ s.cap.val →
    (¬ s.fits bs → padMessage bs s = .error .capacity) ∧
    (s.fits bs → ∃ t, padMessage bs s = .ok (bs - s.len.toNat % bs, t) ∧
      t.len.toNat = s.len.toNat + (bs - s.len.toNat % bs) ∧ t = { s with len := t.len, buf := t.buf } ∧
      ∀ a, t.readBuf a = if s.len.toNat ≤ a ∧ a < s.len.toNat + (bs - s.len.toNat % bs)
        then BitVec.ofNat 8 (bs - s.len.toNat % bs) else s.readBuf a)

/-- `40_padding_codec.md` R102: the facts about a `Pad(bs)` that does not fault. -/
def Obligations.PadProcedureFacts : Prop :=
  ∀ (s t : State) (bs p : Nat), 1 ≤ bs → bs ≤ 255 → s.len.toNat ≤ s.cap.val → padMessage bs s = .ok (p, t) →
    t.len.toNat = s.len.toNat + p ∧ t.len.toNat = bs * (s.len.toNat / bs + 1) ∧ t.len.toNat % bs = 0 ∧
    0 < t.len.toNat ∧ 1 ≤ p ∧ p ≤ bs ∧ (t.readBuf (t.len.toNat - 1)).toNat = p ∧
    (∀ j < p, (t.readBuf (s.len.toNat + j)).toNat = p) ∧ (s.len.toNat % bs = 0 → p = bs)

/-- `40_padding_codec.md` R105: `Strippable(bs)` answers `yes(p)` exactly when the message ends in valid padding of length
`p`, and then `p <= LEN`. -/
def Obligations.StrippableIsValidPadding : Prop :=
  ∀ (s : State) (bs p : Nat), 1 ≤ bs → bs ≤ 255 → s.len.toNat ≤ s.cap.val →
    (strippable bs s = some p ↔ ValidPadding bs s.len.toNat s.readBuf p) ∧
    (strippable bs s = some p → p ≤ s.len.toNat)

/-- `40_padding_codec.md` R103: PAD in full: its two faults, its result, and what it leaves alone. -/
def Obligations.PadAppendsPadding : Prop :=
  ∀ s : State, s.accepts →
    hostWrite 0x00000 0x01 s = exec .pad s ∧
    (s.bs = 0 → exec .pad s = .next (s.raiseFault .invalidBlockSize)) ∧
    (s.bs ≠ 0 → ¬ s.fits s.bs.toNat → exec .pad s = .next (s.raiseFault .capacity)) ∧
    (s.bs ≠ 0 → s.fits s.bs.toNat → ∃ t, exec .pad s = .next t ∧ t.isOk ∧
      t.len.toNat = s.len.toNat + (s.bs.toNat - s.len.toNat % s.bs.toNat) ∧
      t.result.toNat = s.bs.toNat - s.len.toNat % s.bs.toNat ∧ keepsOperands s t ∧
      ∀ a, t.readBuf a =
        if s.len.toNat ≤ a ∧ a < s.len.toNat + (s.bs.toNat - s.len.toNat % s.bs.toNat)
        then BitVec.ofNat 8 (s.bs.toNat - s.len.toNat % s.bs.toNat) else s.readBuf a)

/-- `40_padding_codec.md` R108: STRIP in full. -/
def Obligations.StripRemovesBestEffort : Prop :=
  ∀ s : State, s.accepts →
    hostWrite 0x00000 0x02 s = exec .strip s ∧
    (s.bs = 0 → exec .strip s = .next (s.raiseFault .invalidBlockSize)) ∧
    (s.bs ≠ 0 → ∃ t, exec .strip s = .next t ∧ t.isOk ∧ t.result = s.result ∧ keepsOperands s t ∧ keepsBuf s t ∧
      (∀ p, ValidPadding s.bs.toNat s.len.toNat s.readBuf p → t.len.toNat = s.len.toNat - p) ∧
      ((¬ ∃ p, ValidPadding s.bs.toNat s.len.toNat s.readBuf p) → t.len = s.len))

/-- `40_padding_codec.md` R112: VALIDATE in full: it removes valid padding, or rejects and changes nothing but `STATUS`. -/
def Obligations.ValidateAcceptsOrRejects : Prop :=
  ∀ s : State, s.accepts →
    hostWrite 0x00000 0x03 s = exec .validate s ∧
    (s.bs = 0 → exec .validate s = .next (s.raiseFault .invalidBlockSize)) ∧
    (s.bs ≠ 0 →
      (∀ p, ValidPadding s.bs.toNat s.len.toNat s.readBuf p → ∃ t, exec .validate s = .next t ∧ t.isOk ∧
        t.len.toNat = s.len.toNat - p ∧ t.result = s.result ∧ keepsOperands s t ∧ keepsBuf s t) ∧
      ((¬ ∃ p, ValidPadding s.bs.toNat s.len.toNat s.readBuf p) →
        ∃ t, exec .validate s = .next t ∧ statusByte t = 0x02 ∧ t = { s with code := 2 }))

/-- `40_padding_codec.md` R106, R107: `Strip(bs)` truncates exactly when strict validation would succeed and by the same
length, and no byte of `BUF` is written; so STRIP and VALIDATE leave the same `LEN`. -/
def Obligations.StripAgreesWithValidate : Prop :=
  (∀ (s : State) (bs : Nat), 1 ≤ bs → bs ≤ 255 → s.len.toNat ≤ s.cap.val →
    (∀ p, ValidPadding bs s.len.toNat s.readBuf p →
      (stripPadding bs s).len.toNat = s.len.toNat - p ∧ (stripPadding bs s).len ≠ s.len) ∧
    ((¬ ∃ p, ValidPadding bs s.len.toNat s.readBuf p) → stripPadding bs s = s) ∧
    stripPadding bs s = { s with len := (stripPadding bs s).len }) ∧
  (∀ s t u : State, s.accepts → s.bs ≠ 0 → exec .strip s = .next t → exec .validate s = .next u →
    t.len = u.len ∧ (u.isOk ↔ t.len ≠ s.len))

/-- `40_padding_codec.md` R115: the rejection cases the source lists, the last with the source's own example bytes. -/
def Obligations.ValidateRejectsTheListedCases : Prop :=
  ∀ s : State, s.accepts → s.bs ≠ 0 → 0 < s.len.toNat →
    ((s.readBuf (s.len.toNat - 1) = 0 ∨ s.bs.toNat < (s.readBuf (s.len.toNat - 1)).toNat ∨
      (∃ j < (s.readBuf (s.len.toNat - 1)).toNat,
        s.readBuf (s.len.toNat - 1 - j) ≠ s.readBuf (s.len.toNat - 1)) ∨
      (4 ≤ s.len.toNat ∧ s.readBuf (s.len.toNat - 4) = 0x05 ∧ s.readBuf (s.len.toNat - 3) = 0x05 ∧
        s.readBuf (s.len.toNat - 2) = 0x05 ∧ s.readBuf (s.len.toNat - 1) = 0x04)) →
      exec .validate s = .next { s with code := 2 })

/-- `40_padding_codec.md` R113: PAD and then VALIDATE, or PAD and then STRIP, restore the message. -/
def Obligations.PadThenStripRestoresTheMessage : Prop :=
  ∀ (s : State) (i : Instr), i = .validate ∨ i = .strip → s.accepts → s.bs ≠ 0 → s.fits s.bs.toNat →
    ∃ t u, exec .pad s = .next t ∧ exec i t = .next u ∧ u.len = s.len ∧ statusByte u = 0x00 ∧
      u.result.toNat = s.bs.toNat - s.len.toNat % s.bs.toNat ∧ u.message = s.message

/-- `40_padding_codec.md` R114: a message whose last byte is `0x01` and whose length is a multiple of `BS` is strippable,
whether PAD made it or not; and STRIP and then PAD does not restore a message that was not strippable. -/
def Obligations.StripMayAcceptWhatPadDidNotMake : Prop :=
  (∀ s : State, s.accepts → s.bs ≠ 0 → 0 < s.len.toNat → s.len.toNat % s.bs.toNat = 0 →
    s.readBuf (s.len.toNat - 1) = 0x01 →
    (∃ t, exec .validate s = .next t ∧ t.isOk ∧ t.len.toNat = s.len.toNat - 1) ∧
    ∃ t, exec .strip s = .next t ∧ t.isOk ∧ t.len.toNat = s.len.toNat - 1) ∧
  (∀ s : State, s.accepts → s.bs ≠ 0 → s.fits s.bs.toNat →
    (¬ ∃ p, ValidPadding s.bs.toNat s.len.toNat s.readBuf p) →
    ∃ t u, exec .strip s = .next t ∧ exec .pad t = .next u ∧ s.len.toNat < u.len.toNat)

/-! ### The block chainer -/

/-- `41_block_chaining.md` R122: ECB_ENC in full: each block of the padded message is encrypted on its own. -/
def Obligations.EcbEncEncryptsEachBlock : Prop :=
  ∀ s : State, s.accepts →
    hostWrite 0x00000 0x10 s = exec .ecbEnc s ∧
    (¬ s.fits 16 → exec .ecbEnc s = .next (s.raiseFault .capacity)) ∧
    (s.fits 16 → ∃ t, exec .ecbEnc s = .next t ∧ t.isOk ∧ t.len.toNat = 16 * (s.len.toNat / 16 + 1) ∧
      t.result = s.result ∧ keepsOperands s t ∧
      ∀ a, t.readBuf a = blocksOver (s.len.toNat / 16 + 1) (fun i => Config.E s.key (s.paddedBlock i)) s.readBuf a)

/-- `41_block_chaining.md` R124: ECB_DEC in full: each block is decrypted on its own, then `LEN` drops by the pad length when
the decrypted bytes end in valid padding for 16. -/
def Obligations.EcbDecDecryptsEachBlock : Prop :=
  ∀ s : State, s.accepts →
    hostWrite 0x00000 0x11 s = exec .ecbDec s ∧
    (¬ s.wholeBlocks → exec .ecbDec s = .next (s.raiseFault .invalidLength)) ∧
    (s.wholeBlocks → ∃ t, exec .ecbDec s = .next t ∧ t.isOk ∧ t.result = s.result ∧ keepsOperands s t ∧
      (∀ a, t.readBuf a = blocksOver (s.len.toNat / 16) (fun i => Config.D s.key (s.readBlock i)) s.readBuf a) ∧
      (∀ p, ValidPadding 16 s.len.toNat t.readBuf p → t.len.toNat = s.len.toNat - p) ∧
      ((¬ ∃ p, ValidPadding 16 s.len.toNat t.readBuf p) → t.len = s.len))

/-- `41_block_chaining.md` R130: CBC_ENC in full: `C_0 = E(KEY, P_0 ^ IV)`, `C_i = E(KEY, P_i ^ C_(i-1))`. -/
def Obligations.CbcEncEncryptsInAChain : Prop :=
  ∀ s : State, s.accepts →
    hostWrite 0x00000 0x12 s = exec .cbcEnc s ∧
    (¬ s.fits 16 → exec .cbcEnc s = .next (s.raiseFault .capacity)) ∧
    (s.fits 16 → ∃ t, exec .cbcEnc s = .next t ∧ t.isOk ∧ t.len.toNat = 16 * (s.len.toNat / 16 + 1) ∧
      t.result = s.result ∧ keepsOperands s t ∧
      ∀ a, t.readBuf a =
        blocksOver (s.len.toNat / 16 + 1) (cbcCipher (Config.E s.key) s.iv s.paddedBlock) s.readBuf a)

/-- `41_block_chaining.md` R134: CBC_DEC in full: `P_0 = D(KEY, C_0) ^ IV`, `P_i = D(KEY, C_i) ^ C_(i-1)` with the ciphertext
as it was before the command, then `Strip(16)`. -/
def Obligations.CbcDecDecryptsInAChain : Prop :=
  ∀ s : State, s.accepts →
    hostWrite 0x00000 0x13 s = exec .cbcDec s ∧
    (¬ s.wholeBlocks → exec .cbcDec s = .next (s.raiseFault .invalidLength)) ∧
    (s.wholeBlocks → ∃ t, exec .cbcDec s = .next t ∧ t.isOk ∧ t.result = s.result ∧ keepsOperands s t ∧
      (∀ a, t.readBuf a =
        blocksOver (s.len.toNat / 16) (cbcPlain (Config.D s.key) s.iv s.readBlock) s.readBuf a) ∧
      (∀ p, ValidPadding 16 s.len.toNat t.readBuf p → t.len.toNat = s.len.toNat - p) ∧
      ((¬ ∃ p, ValidPadding 16 s.len.toNat t.readBuf p) → t.len = s.len))

/-- `41_block_chaining.md` R127: under one key, within one ECB_ENC and across two, equal plaintext blocks give equal
ciphertext blocks, and under `PrimInverse` different ones give different ones; the machine's ECB_ENC is the case
`E = Config.E`. -/
def Obligations.EcbMapsEqualBlocksToEqualBlocks : Prop :=
  (∀ (E : Prim) (s t : State), s.accepts → t.accepts → s.fits 16 → t.fits 16 → s.key = t.key →
    ∀ i < s.paddedBlocks, ∀ j < t.paddedBlocks,
      (s.paddedBlock i = t.paddedBlock j →
        (issued (ecbEncCommand E) s).readBlock i = (issued (ecbEncCommand E) t).readBlock j) ∧
      (∀ D : Prim, PrimInverse E D → s.paddedBlock i ≠ t.paddedBlock j →
        (issued (ecbEncCommand E) s).readBlock i ≠ (issued (ecbEncCommand E) t).readBlock j)) ∧
  (∀ s : State, exec .ecbEnc s = .next (issued (ecbEncCommand Config.E) s))

/-- `41_block_chaining.md` R137: a decrypt command that reports `OK` leaves `LEN` as it was or lowers it by 1 to 16, and no
decrypt command ever reports `InvalidPadding`. -/
def Obligations.DecryptStripsWithoutASignal : Prop :=
  ∀ (i : Instr) (s t : State), i = .ecbDec ∨ i = .cbcDec → s.accepts → exec i s = .next t →
    (t.isOk → t.len = s.len ∨ ∃ p, 1 ≤ p ∧ p ≤ 16 ∧ t.len.toNat + p = s.len.toNat) ∧ t.code ≠ 2

/-- `41_block_chaining.md` R138: the round trip of both modes, for every primitive with `PrimInverse`; the machine's commands
are the case `E = Config.E`, `D = Config.D`. -/
def Obligations.DecryptUndoesEncrypt : Prop :=
  (∀ (E D : Prim), PrimInverse E D → ∀ s : State, s.fault = false → 16 * (s.len.toNat / 16 + 1) ≤ s.cap.val →
    ∀ u : State,
      u = issued (ecbDecCommand D) (issued (ecbEncCommand E) s) ∨
        u = issued (cbcDecCommand D) (issued (cbcEncCommand E) s) →
      u.len = s.len ∧ u.message = s.message ∧ statusByte u = 0x00 ∧
      (∀ a, s.len.toNat ≤ a → a < 16 * (s.len.toNat / 16 + 1) →
        u.readBuf a = BitVec.ofNat 8 (16 - s.len.toNat % 16)) ∧
      ∀ a, 16 * (s.len.toNat / 16 + 1) ≤ a → u.readBuf a = s.readBuf a) ∧
  (∀ s : State, exec .ecbEnc s = .next (issued (ecbEncCommand Config.E) s) ∧
    exec .ecbDec s = .next (issued (ecbDecCommand Config.D) s) ∧
    exec .cbcEnc s = .next (issued (cbcEncCommand Config.E) s) ∧
    exec .cbcDec s = .next (issued (cbcDecCommand Config.D) s))

/-- `41_block_chaining.md` R139: a mask XORed into ciphertext block `i-1` comes out XORed into plaintext block `i`, garbles
block `i-1` in the way given and touches no other block; a mask XORed into `IV` changes block 0 alone. -/
def Obligations.CbcBitFlip : Prop :=
  ∀ (s t : State) (m : Block), s.accepts → s.wholeBlocks → exec .cbcDec s = .next t →
    (∀ i, 1 ≤ i → i < s.len.toNat / 16 →
      ∃ u, exec .cbcDec (s.writeBlock (i - 1) (xorBlock (s.readBlock (i - 1)) m)) = .next u ∧
        u.readBlock i = xorBlock (t.readBlock i) m ∧
        u.readBlock (i - 1) = xorBlock (Config.D s.key (xorBlock (s.readBlock (i - 1)) m))
          (chained s.iv s.readBlock (i - 1)) ∧
        ∀ k < s.len.toNat / 16, k ≠ i → k ≠ i - 1 → u.readBlock k = t.readBlock k) ∧
    (∃ u, exec .cbcDec { s with iv := xorBlock s.iv m } = .next u ∧
      u.readBlock 0 = xorBlock (t.readBlock 0) m ∧
      ∀ k < s.len.toNat / 16, k ≠ 0 → u.readBlock k = t.readBlock k)

/-- `41_block_chaining.md` R140: a message spliced from blocks of ECB_ENC outputs under one key decrypts under ECB_DEC to the
corresponding plaintext blocks, whatever their order or origin, and `Strip(16)` sets `LEN`. -/
def Obligations.EcbBlocksSplice : Prop :=
  ∀ (E D : Prim), PrimInverse E D → ∀ (s : State) (origin : Nat → State) (place : Nat → Nat),
    s.accepts → s.wholeBlocks →
    (∀ i < s.len.toNat / 16, (origin i).accepts ∧ (origin i).fits 16 ∧ (origin i).key = s.key ∧
      place i < (origin i).paddedBlocks ∧
      s.readBlock i = (issued (ecbEncCommand E) (origin i)).readBlock (place i)) →
    let t := issued (ecbDecCommand D) s
    t.isOk ∧ (∀ i < s.len.toNat / 16, t.readBlock i = (origin i).paddedBlock (place i)) ∧
    (∀ p, ValidPadding 16 s.len.toNat t.readBuf p → t.len.toNat = s.len.toNat - p) ∧
    ((¬ ∃ p, ValidPadding 16 s.len.toNat t.readBuf p) → t.len = s.len)

/-- `41_block_chaining.md` R141: no chainer command writes `KEY`, `IV`, `BS` or `RESULT`, and its result does not depend on
`BS`, `RESULT`, the earlier code, bytes of `BUF` at or above the message, nor, for ECB, on `IV`: two states that agree on
everything else give the same outcome and the same message. -/
def Obligations.ChainerReadsOnlyItsOperands : Prop :=
  ∀ (i : Instr) (s t : State), i = .ecbEnc ∨ i = .ecbDec ∨ i = .cbcEnc ∨ i = .cbcDec →
    s.fault = false → t.fault = false → s.key = t.key → s.len = t.len → s.cap = t.cap →
    (s.iv = t.iv ∨ i = .ecbEnc ∨ i = .ecbDec) → (∀ a < s.len.toNat, s.readBuf a = t.readBuf a) →
    ∃ s' t', exec i s = .next s' ∧ exec i t = .next t' ∧
      (s'.key = s.key ∧ s'.iv = s.iv ∧ s'.bs = s.bs ∧ s'.result = s.result) ∧
      s'.fault = t'.fault ∧ s'.code = t'.code ∧ s'.len = t'.len ∧
      ∀ a, a < s'.len.toNat ∨ a < s.len.toNat → s'.readBuf a = t'.readBuf a

/-- `30_encoding.md` R83, `70_reset_and_hazards.md` R196: the codec commands read `BS`, `LEN`, `CAP` and the message, and
nothing else: two states that agree on these give the same outcome, the same message and, for a PAD that succeeds, the same
`RESULT`. -/
def Obligations.CodecReadsOnlyItsOperands : Prop :=
  ∀ (i : Instr) (s t : State), i = .pad ∨ i = .strip ∨ i = .validate →
    s.fault = false → t.fault = false → s.bs = t.bs → s.len = t.len → s.cap = t.cap →
    (∀ a < s.len.toNat, s.readBuf a = t.readBuf a) →
    ∃ s' t', exec i s = .next s' ∧ exec i t = .next t' ∧
      s'.fault = t'.fault ∧ s'.code = t'.code ∧ s'.len = t'.len ∧
      (i = .pad → s'.isOk → s'.result = t'.result) ∧
      ∀ a, a < s'.len.toNat ∨ a < s.len.toNat → s'.readBuf a = t'.readBuf a

/-- `41_block_chaining.md` R136: two CBC_ENC in a row each start from `IV` as the host wrote it; the chain is not continued. -/
def Obligations.CbcCommandsEachStartFromIv : Prop :=
  ∀ s : State, s.fault = false → 16 * (s.len.toNat / 16 + 2) ≤ s.cap.val →
    ∃ t u, exec .cbcEnc s = .next t ∧ exec .cbcEnc t = .next u ∧ t.iv = s.iv ∧ u.iv = s.iv ∧
      t.readBlock 0 = Config.E s.key (xorBlock (s.paddedBlock 0) s.iv) ∧
      u.readBlock 0 = Config.E s.key (xorBlock (t.readBlock 0) s.iv)

/-- `41_block_chaining.md` R130, corner case: with `IV` all zero the first block of CBC_ENC is that of ECB_ENC. -/
def Obligations.CbcWithZeroIvStartsAsEcb : Prop :=
  ∀ s : State, s.accepts → s.fits 16 → s.iv = Vector.replicate 16 0x00 →
    ∃ t u, exec .cbcEnc s = .next t ∧ exec .ecbEnc s = .next u ∧ t.readBlock 0 = u.readBlock 0

/-! ### The host's transactions -/

/-- `20_memory.md` R53: the two transactions, for every address and in every state, a latched fault included. A read changes
nothing in the engine; the byte it returns is what the host has observed (R203; the record is the model's own field, log
entry 4). R54 and R55 are the last row of each half. -/
def Obligations.HostTransactionsFollowTheMap : Prop :=
  (∀ (s : State) (addr : Addr) (v : Byte),
    let n := addr.toNat
    (n = 0x00000 → hostWrite addr v s = issueByte v s) ∧
    (n = 0x00002 → hostWrite addr v s = .next { s with bs := v }) ∧
    (n = 0x00004 → ∃ t, hostWrite addr v s = .next t ∧ t = { s with len := t.len } ∧
      t.len.toNat = 256 * (s.len.toNat / 256) + v.toNat) ∧
    (n = 0x00005 → ∃ t, hostWrite addr v s = .next t ∧ t = { s with len := t.len } ∧
      t.len.toNat = 256 * v.toNat + s.len.toNat % 256) ∧
    (∀ j : Fin 16, n = 0x00010 + j.val → hostWrite addr v s = .next { s with key := s.key.set j v }) ∧
    (∀ j : Fin 16, n = 0x00020 + j.val → hostWrite addr v s = .next { s with iv := s.iv.set j v }) ∧
    (∀ a < s.cap.val, n = 0x10000 + a → ∃ t, hostWrite addr v s = .next t ∧ t = { s with buf := t.buf } ∧
      ∀ b, t.readBuf b = if b = a then v else s.readBuf b) ∧
    (n = 0x00001 ∨ n = 0x00003 ∨ (0x00006 ≤ n ∧ n ≤ 0x0000F) ∨ (0x00030 ≤ n ∧ n ≤ 0x0FFFF) ∨
      0x10000 + s.cap.val ≤ n → hostWrite addr v s = .next s)) ∧
  (∀ (s : State) (addr : Addr),
    let n := addr.toNat
    let b := hostRead s addr
    hostEvent (.read addr) s = .next (s.observe b) ∧
      (n = 0x00001 → b.toNat = 128 * s.fault.toNat + s.code.toNat) ∧
      (n = 0x00002 → b = s.bs) ∧
      (n = 0x00003 → b = s.result) ∧
      (n = 0x00004 → b.toNat = s.len.toNat % 256) ∧
      (n = 0x00005 → b.toNat = s.len.toNat / 256) ∧
      (n = 0x00006 → b.toNat = s.cap.val % 256) ∧
      (n = 0x00007 → b.toNat = s.cap.val / 256) ∧
      (∀ j : Fin 16, n = 0x00020 + j.val → b = s.iv[j]) ∧
      (∀ a < s.cap.val, n = 0x10000 + a → b = s.readBuf a) ∧
      (n = 0x00000 ∨ (0x00008 ≤ n ∧ n ≤ 0x0001F) ∨ (0x00030 ≤ n ∧ n ≤ 0x0FFFF) ∨ 0x10000 + s.cap.val ≤ n →
        b = 0x00))

/-- `20_memory.md` R60: a write to `CMD` is the only access that does more than store its byte; no read changes anything, so
reading an address twice gives the same byte; and writing the same byte twice to `BS`, `LEN_L`, `LEN_H`, `KEY`, `IV` or `BUF`
has the effect of writing it once. The record of what the host has observed is the model's own field (log entry 4). -/
def Obligations.ReadsAndDataWritesAreIdempotent : Prop :=
  (∀ (s : State) (a b : Addr), ∃ t, hostEvent (.read a) s = .next t ∧ t = { s with observed := t.observed } ∧
    hostRead t b = hostRead s b) ∧
  (∀ (s : State) (addr : Addr) (v : Byte), addr ≠ 0 →
    ∃ t, hostWrite addr v s = .next t ∧ hostWrite addr v t = .next t ∧
      ∀ b : Addr, b ≠ addr → hostRead t b = hostRead s b)

/-- `20_memory.md` R52: the register map has one address for each register and one register for each address it names. -/
def Obligations.RegisterMapIsOneToOne : Prop :=
  (∀ (cap : Nat) (r : Reg), cap ≤ 65535 → r.wf cap = true → locate cap (Reg.offset r) = some r) ∧
  (∀ (cap : Nat) (addr : Addr) (r : Reg), locate cap addr = some r → Reg.offset r = addr ∧ r.wf cap = true)

/-- `60_exceptions.md` R174, `20_memory.md` R55: a run without a chainer command or a reset lets the host observe nothing of
`KEY`: with any other key the same bytes are read and the same state is reached, but for the key. -/
def Obligations.KeyIsObservedOnlyThroughTheChainer : Prop :=
  ∀ (events : List HostEvent) (s : State) (k : Block), (∀ e ∈ events, HostEvent.sparesTheKey e) →
    ∃ t u, runEvents events s = .next t ∧ runEvents events { s with key := k } = .next u ∧
      t.observed = u.observed ∧ u = { t with key := u.key }

/-- `70_reset_and_hazards.md` R202, R203: every run, from every state, comes to its end: no event is refused or stops the
machine, and the host observes one byte a read. -/
def Obligations.EveryRunComesToItsEnd : Prop :=
  ∀ (events : List HostEvent) (s : State),
    ∃ t, runEvents events s = .next t ∧ t.pending = [] ∧ t.cap = s.cap ∧
      ∃ bytes, t.observed = s.observed ++ bytes ∧ bytes.length = events.countP HostEvent.isRead

/-- `30_encoding.md` R89, `70_reset_and_hazards.md` R199: `SETLEN n` sets `LEN` to `n` and nothing else, in either order of its
two writes. -/
def Obligations.SetLenWritesLenInEitherOrder : Prop :=
  ∀ (s : State) (n len : Nat), Stmt.wf s.cap.val s.len.toNat (.setLen n) = true →
    ∃ t, runEvents (Stmt.expand len (.setLen n)) s = .next t ∧
      runEvents (Stmt.expand len (.setLen n)).reverse s = .next t ∧
      t.len.toNat = n ∧ t = { s with len := t.len, pending := [] }

/-- `30_encoding.md` R89: `LOAD` makes the given bytes the message and leaves the rest of `BUF` and every other register
alone. -/
def Obligations.LoadMakesTheMessage : Prop :=
  ∀ (s : State) (bytes : List Byte) (len : Nat), Stmt.wf s.cap.val s.len.toNat (.load bytes) = true →
    ∃ t, runEvents (Stmt.expand len (.load bytes)) s = .next t ∧ t.message = bytes ∧
      (∀ a, bytes.length ≤ a → t.readBuf a = s.readBuf a) ∧
      t = { s with len := t.len, buf := t.buf, pending := [] }

/-- `30_encoding.md` R89: `LDKEY` and `LDIV` load all sixteen bytes in index order (`20_memory.md` R56). -/
def Obligations.LdKeyAndLdIvLoadSixteenBytes : Prop :=
  ∀ (s : State) (bytes : List Byte) (len : Nat), bytes.length = 16 →
    (∃ t, runEvents (Stmt.expand len (.ldKey bytes)) s = .next t ∧ t.key.toList = bytes ∧
      t = { s with key := t.key, pending := [] }) ∧
    (∃ t, runEvents (Stmt.expand len (.ldIv bytes)) s = .next t ∧ t.iv.toList = bytes ∧
      t = { s with iv := t.iv, pending := [] })

/-- `30_encoding.md` R89: `RDBUF a, m` observes the `m` bytes of `BUF` from `a`, in ascending order. -/
def Obligations.RdBufObservesTheBuffer : Prop :=
  ∀ (s : State) (a m len : Nat), Stmt.wf s.cap.val s.len.toNat (.rdBuf a m) = true →
    runEvents (Stmt.expand len (.rdBuf a m)) s =
      .next { s with observed := s.observed ++ s.readBytes a m, pending := [] }

/-! ### What holds of every state -/

/-- `10_state.md` R27: the six bytes that can be read from `STATUS`, each of them in some legal state, and bits 6:4 zero. -/
def Obligations.StatusReadsOneOfSixBytes : Prop :=
  (∀ s : State, s.Inv → statusByte s ∈ ([0x00, 0x02, 0x81, 0x83, 0x84, 0x85] : List Byte)) ∧
  (∀ b ∈ ([0x00, 0x02, 0x81, 0x83, 0x84, 0x85] : List Byte), ∃ s : State, s.Inv ∧ statusByte s = b) ∧
  (∀ s : State, (statusByte s).extractLsb' 4 3 = 0)

/-- `10_state.md` R34: which commands write `KEY`, `IV`, `BS`, `RESULT` and `BUF`, in the columns of the commands. -/
def Obligations.CommandsObeyTheWriteMatrix : Prop :=
  ∀ (i : Instr) (s t : State), i ≠ .clr → exec i s = .next t →
    t.key = s.key ∧ t.iv = s.iv ∧ t.bs = s.bs ∧
    (i ≠ .pad → t.result = s.result) ∧
    (i = .strip ∨ i = .validate → keepsBuf s t) ∧
    (i = .pad → ∀ a, a < s.len.toNat ∨ t.len.toNat ≤ a → t.readBuf a = s.readBuf a) ∧
    (i = .ecbEnc ∨ i = .cbcEnc → ∀ a, t.len.toNat ≤ a → t.readBuf a = s.readBuf a) ∧
    (i = .ecbDec ∨ i = .cbcDec → ∀ a, s.len.toNat ≤ a → t.readBuf a = s.readBuf a)

/-- `20_memory.md` R61: no command but CLR changes a byte at an index outside `BUF[0 +: CAP]`, and none lists one. -/
def Obligations.CommandsStayInsideTheBuffer : Prop :=
  ∀ (i : Instr) (s t : State), exec i s = .next t → (∀ c ∈ s.buf, c.1 < s.cap.val) →
    (i ≠ .clr → ∀ a, s.cap.val ≤ a → t.readBuf a = s.readBuf a) ∧ ∀ c ∈ t.buf, c.1 < t.cap.val

/-- An invariant that every step keeps, from every state that meets it: `BUF` stays canonical and inside its capacity, and
`STATUS` stays legal (`10_state.md` R35; the canonical form is the model's own, log entry 2). -/
def Obligations.EveryStepKeepsTheInvariant : Prop :=
  ∀ s t : State, s.Inv → step s = .next t → t.Inv

/-- The state after reset meets the invariant that every step keeps. -/
def Obligations.ResetMeetsTheInvariant : Prop := State.reset.Inv

/-- `10_state.md` R35: what holds between commands (`STATUS` is legal; after a command that ends `OK`, `LEN <= CAP`) and what
does not (`LEN <= CAP` and `BS >= 1` are no invariants). -/
def Obligations.RegisterRangesThatHoldAndThatDoNot : Prop :=
  State.reset.statusLegal ∧
  (∀ s t : State, s.statusLegal → step s = .next t → t.statusLegal) ∧
  (∀ (i : Instr) (s t : State), exec i s = .next t → t.isOk → t.len.toNat ≤ t.cap.val) ∧
  (∃ s t : State, s.Inv ∧ s.len.toNat ≤ s.cap.val ∧ step s = .next t ∧ t.cap.val < t.len.toNat) ∧
  (∃ s t : State, s.Inv ∧ 1 ≤ s.bs.toNat ∧ step s = .next t ∧ t.bs.toNat = 0)

/-! ### The host's statements -/

/-- The host that runs a statement sends the transactions of its expansion; for `GETMSG` these are the reads that the value
of `LEN` at that time asks for. Where `Stmt.wf` holds the expansions are those of `30_encoding.md` R88 and R89. Without it
the statement says what the model's host does, which is the model's own reading (log entry 10): R89 gives `RDBUF 0, LEN`
for `LEN` at most `CAP` only, and the model sends the reads past that bound too; likewise for the other side conditions. -/
def Obligations.EachStatementRunsItsExpansion : Prop :=
  ∀ (t : Stmt) (s : State), runStmt t s = runEvents (Stmt.expand s.len.toNat t) s

/-- `30_encoding.md` R89: `GETMSG` after any program observes `LEN_L`, `LEN_H` and then the message, of the length that the
program left, and changes nothing else. -/
def Obligations.GetMsgObservesTheMessage : Prop :=
  ∀ (before : List Stmt) (s u : State), runProgram before s = .next u →
    Stmt.wf u.cap.val u.len.toNat .getMsg = true →
    ∃ lo hi : Byte, 256 * hi.toNat + lo.toNat = u.len.toNat ∧
      runProgram (before ++ [.getMsg]) s =
        .next { u with observed := u.observed ++ [lo, hi] ++ u.message, pending := [] }

/-- `30_encoding.md` R89: `SETLEN n` and then `GETMSG` reads the first `n` bytes of `BUF`, whatever `LEN` was before. -/
def Obligations.GetMsgReadsTheLengthJustSet : Prop :=
  ∀ (s : State) (n : Nat), n ≤ s.cap.val →
    ∃ u, runProgram [.setLen n, .getMsg] s = .next u ∧ u.len.toNat = n ∧
      u.observed =
        s.observed ++ [BitVec.ofNat 8 (n % 256), BitVec.ofNat 8 (n / 256)] ++ s.readBytes 0 n
end

