-- ==== Sys2Proof/Laws/Memory.lean ====
section
/-! SUPPORT. Laws/Memory.lean: a read after a write, for every list of cells, and the canonical form, which every memory
operation keeps. -/

namespace Sys2Proof.Machine

theorem Memory.lookup_erase_self (m : Memory) (a : Nat) : (m.erase a).lookup a = none := by
  induction m with
  | nil => rfl
  | cons c m ih =>
    by_cases h : c.1 = a
    · simpa [Memory.erase, h] using ih
    · simpa [Memory.erase, h, Memory.lookup] using ih

theorem Memory.lookup_erase_ne (m : Memory) {a b : Nat} (h : b ≠ a) : (m.erase a).lookup b = m.lookup b := by
  induction m with
  | nil => rfl
  | cons c m ih =>
    by_cases hc : c.1 = a
    · have : c.1 ≠ b := fun e => h (e.symm.trans hc)
      simpa [Memory.erase, hc, Memory.lookup, h.symm] using ih
    · by_cases hb : c.1 = b
      · simp [Memory.erase, hb, h, Memory.lookup]
      · simpa [Memory.erase, hc, hb, Memory.lookup] using ih

theorem Memory.lookup_insert_self (m : Memory) (a : Nat) (v : Byte) (h : m.lookup a = none) :
    (m.insert a v).lookup a = some v := by
  induction m with
  | nil => simp [Memory.insert, Memory.lookup]
  | cons c m ih =>
    by_cases hc : c.1 = a
    · simp [Memory.lookup, hc] at h
    · have hm : Memory.lookup m a = none := by simpa only [Memory.lookup, hc, if_false] using h
      by_cases hlt : a < c.1
      · simp [Memory.insert, hlt, Memory.lookup]
      · simpa [Memory.insert, hlt, Memory.lookup, hc] using ih hm

theorem Memory.lookup_insert_ne (m : Memory) {a b : Nat} (v : Byte) (h : b ≠ a) :
    (m.insert a v).lookup b = m.lookup b := by
  induction m with
  | nil => simp [Memory.insert, Memory.lookup, h.symm]
  | cons c m ih =>
    by_cases hlt : a < c.1
    · simp [Memory.insert, hlt, Memory.lookup, h.symm]
    · simp [Memory.insert, hlt, Memory.lookup, ih]

/-- A read after a write: the byte written at its address, the old byte elsewhere. -/
theorem Memory.read_write (fill : List Byte) (m : Memory) (a b : Nat) (v : Byte) :
    Memory.read fill (Memory.write fill m a v) b = if b = a then v else Memory.read fill m b := by
  unfold Memory.read Memory.write
  by_cases hv : v = unwrittenByte fill a <;> by_cases hb : b = a
  · subst hb; simp [← hv, Memory.lookup_erase_self]
  · simp [← hv, hb, Memory.lookup_erase_ne m hb]
  · subst hb; simp [hv, Memory.lookup_insert_self _ _ v (Memory.lookup_erase_self m b)]
  · simp [hv, hb, Memory.lookup_insert_ne _ v hb, Memory.lookup_erase_ne m hb]

/-- A read after a byte sequence is written. -/
theorem Memory.read_writeList (fill : List Byte) (vs : List Byte) (m : Memory) (a b : Nat) :
    Memory.read fill (Memory.writeList fill m a vs) b =
      if a ≤ b ∧ b < a + vs.length then vs.getD (b - a) 0 else Memory.read fill m b := by
  induction vs generalizing m a with
  | nil =>
    have : ¬ (a ≤ b ∧ b < a + ([] : List Byte).length) := by simp
    simp only [this, if_false, Memory.writeList]
  | cons v vs ih =>
    rw [Memory.writeList, ih, Memory.read_write]
    by_cases hb : b = a
    · subst hb; simp
    · by_cases hin : a + 1 ≤ b ∧ b < a + 1 + vs.length
      · have hin' : a ≤ b ∧ b < a + (v :: vs).length := by
          simp only [List.length_cons]; omega
        rw [if_pos hin, if_pos hin']
        obtain ⟨k, hk⟩ : ∃ k, b - a = k + 1 := ⟨b - a - 1, by omega⟩
        have : b - (a + 1) = k := by omega
        rw [hk, this]; rfl
      · have hin' : ¬ (a ≤ b ∧ b < a + (v :: vs).length) := by
          simp only [List.length_cons]; omega
        rw [if_neg hin, if_neg hin', if_neg hb]

theorem Memory.mem_insert {m : Memory} {a : Nat} {v : Byte} {c : Host.Cell} :
    c ∈ m.insert a v ↔ c = (a, v) ∨ c ∈ m := by
  induction m with
  | nil => simp [Memory.insert]
  | cons d m ih =>
    by_cases hlt : a < d.1
    · simp [Memory.insert, hlt]
    · simp only [Memory.insert, hlt, if_false, List.mem_cons, ih]
      tauto

theorem Memory.mem_erase {m : Memory} {a : Nat} {c : Host.Cell} : c ∈ m.erase a ↔ c ∈ m ∧ c.1 ≠ a := by
  simp [Memory.erase]

/-- Dropping an entry that was just made gives the list back. -/
theorem Memory.erase_insert {m : Memory} {a : Nat} (v : Byte) (h : ∀ c ∈ m, c.1 ≠ a) : (m.insert a v).erase a = m := by
  induction m with
  | nil => simp [Memory.insert, Memory.erase]
  | cons c m ih =>
    have hc := h c List.mem_cons_self
    have hm : ∀ d ∈ m, d.1 ≠ a := fun d hd => h d (List.mem_cons_of_mem c hd)
    have he : Memory.erase m a = m := List.filter_eq_self.mpr (by simpa using fun d v hd => hm (d, v) hd)
    have hcons : ∀ l : Memory, Memory.erase (c :: l) a = c :: Memory.erase l a := fun l => by simp [Memory.erase, hc]
    unfold Memory.insert
    split
    · rw [← he, ← hcons]
      simp [Memory.erase]
    · rw [hcons, ih hm]

/-- Writing the same byte twice is writing it once. -/
theorem Memory.write_write (fill : List Byte) (m : Memory) (a : Nat) (v : Byte) :
    Memory.write fill (Memory.write fill m a v) a v = Memory.write fill m a v := by
  unfold Memory.write
  by_cases hv : v = unwrittenByte fill a
  · simp [hv, Memory.erase]
  · rw [if_neg hv, if_neg hv, Memory.erase_insert v fun c hc => (Memory.mem_erase.mp hc).2]

/-- What a write can list: the byte written, or what was listed before. -/
theorem Memory.mem_write {fill : List Byte} {m : Memory} {a : Nat} {v : Byte} {c : Host.Cell}
    (h : c ∈ Memory.write fill m a v) : c = (a, v) ∨ c ∈ m := by
  unfold Memory.write at h
  split at h
  · exact .inr (Memory.mem_erase.mp h).1
  · exact (Memory.mem_insert.mp h).imp_right fun h => (Memory.mem_erase.mp h).1

theorem Memory.insert_sorted {m : Memory} {a : Nat} {v : Byte} (hm : m.Pairwise fun c d => c.1 < d.1)
    (ha : ∀ c ∈ m, c.1 ≠ a) : (m.insert a v).Pairwise fun c d => c.1 < d.1 := by
  induction m with
  | nil => simp [Memory.insert]
  | cons c m ih =>
    rw [List.pairwise_cons] at hm
    have hca : c.1 ≠ a := ha c (by simp)
    by_cases hlt : a < c.1
    · simp only [Memory.insert, hlt, if_true, List.pairwise_cons, List.mem_cons]
      refine ⟨?_, hm⟩
      rintro d (rfl | hd)
      · exact hlt
      · exact hlt.trans (hm.1 d hd)
    · simp only [Memory.insert, hlt, if_false, List.pairwise_cons]
      refine ⟨fun d hd => ?_, ih hm.2 fun d hd => ha d (by simp [hd])⟩
      rcases Memory.mem_insert.mp hd with rfl | hd
      · show c.1 < a
        omega
      · exact hm.1 d hd

theorem Memory.wf_nil (fill : List Byte) : Memory.wf fill [] := by simp [Memory.wf]

/-- `BUF` after reset is in canonical form. -/
theorem Memory.wf_reset : Memory.wf State.reset.fill State.reset.buf := Memory.wf_nil _

theorem Memory.wf_erase {fill : List Byte} {m : Memory} (h : Memory.wf fill m) (a : Nat) :
    Memory.wf fill (m.erase a) :=
  ⟨h.1.filter _, fun c hc => h.2 c (Memory.mem_erase.mp hc).1⟩

/-- A write keeps the canonical form. -/
theorem Memory.wf_write {fill : List Byte} {m : Memory} (h : Memory.wf fill m) (a : Nat) (v : Byte) :
    Memory.wf fill (Memory.write fill m a v) := by
  unfold Memory.write
  split
  · exact Memory.wf_erase h a
  · rename_i hv
    refine ⟨Memory.insert_sorted (Memory.wf_erase h a).1 fun c hc => (Memory.mem_erase.mp hc).2, fun c hc => ?_⟩
    rcases Memory.mem_insert.mp hc with rfl | hc
    · exact hv
    · exact h.2 c (Memory.mem_erase.mp hc).1

/-- Writing a byte sequence keeps the canonical form. -/
theorem Memory.wf_writeList {fill : List Byte} (vs : List Byte) {m : Memory} (h : Memory.wf fill m) (a : Nat) :
    Memory.wf fill (Memory.writeList fill m a vs) := by
  induction vs generalizing m a with
  | nil => exact h
  | cons v vs ih => exact ih (Memory.wf_write h a v) (a + 1)

/-- Writing a byte sequence lists no address but the old ones and those written. -/
theorem Memory.mem_writeList {fill : List Byte} (vs : List Byte) {m : Memory} {a : Nat} {c : Host.Cell}
    (h : c ∈ Memory.writeList fill m a vs) : (a ≤ c.1 ∧ c.1 < a + vs.length) ∨ c ∈ m := by
  induction vs generalizing m a with
  | nil => exact .inr h
  | cons v vs ih =>
    rcases ih h with ⟨h1, h2⟩ | h
    · left; simp only [List.length_cons]; omega
    · rcases Memory.mem_write h with rfl | h
      · left; simp
      · exact .inr h

end Sys2Proof.Machine
end

