-- ==== Sys2Proof/Laws/State.lean ====
section
/-! SUPPORT. Laws/State.lean: one lemma per field of State for each named update, so that no proof unfolds a record
update. -/

namespace Sys2Proof.Machine

/-! ### `State.writeBuf` -/

@[simp] theorem State.writeBuf_key (s : State) (a : Nat) (v : Byte) : (s.writeBuf a v).key = s.key := rfl
@[simp] theorem State.writeBuf_iv (s : State) (a : Nat) (v : Byte) : (s.writeBuf a v).iv = s.iv := rfl
@[simp] theorem State.writeBuf_bs (s : State) (a : Nat) (v : Byte) : (s.writeBuf a v).bs = s.bs := rfl
@[simp] theorem State.writeBuf_len (s : State) (a : Nat) (v : Byte) : (s.writeBuf a v).len = s.len := rfl
@[simp] theorem State.writeBuf_result (s : State) (a : Nat) (v : Byte) : (s.writeBuf a v).result = s.result := rfl
@[simp] theorem State.writeBuf_fault (s : State) (a : Nat) (v : Byte) : (s.writeBuf a v).fault = s.fault := rfl
@[simp] theorem State.writeBuf_code (s : State) (a : Nat) (v : Byte) : (s.writeBuf a v).code = s.code := rfl
@[simp] theorem State.writeBuf_buf (s : State) (a : Nat) (v : Byte) :
    (s.writeBuf a v).buf = Memory.write s.fill s.buf a v := rfl
@[simp] theorem State.writeBuf_fill (s : State) (a : Nat) (v : Byte) : (s.writeBuf a v).fill = s.fill := rfl
@[simp] theorem State.writeBuf_resets (s : State) (a : Nat) (v : Byte) : (s.writeBuf a v).resets = s.resets := rfl
@[simp] theorem State.writeBuf_cap (s : State) (a : Nat) (v : Byte) : (s.writeBuf a v).cap = s.cap := rfl
@[simp] theorem State.writeBuf_pending (s : State) (a : Nat) (v : Byte) : (s.writeBuf a v).pending = s.pending := rfl
@[simp] theorem State.writeBuf_observed (s : State) (a : Nat) (v : Byte) :
    (s.writeBuf a v).observed = s.observed := rfl

/-! ### `State.writeBytes` -/

@[simp] theorem State.writeBytes_key (s : State) (a : Nat) (vs : List Byte) : (s.writeBytes a vs).key = s.key := rfl
@[simp] theorem State.writeBytes_iv (s : State) (a : Nat) (vs : List Byte) : (s.writeBytes a vs).iv = s.iv := rfl
@[simp] theorem State.writeBytes_bs (s : State) (a : Nat) (vs : List Byte) : (s.writeBytes a vs).bs = s.bs := rfl
@[simp] theorem State.writeBytes_len (s : State) (a : Nat) (vs : List Byte) : (s.writeBytes a vs).len = s.len := rfl
@[simp] theorem State.writeBytes_result (s : State) (a : Nat) (vs : List Byte) :
    (s.writeBytes a vs).result = s.result := rfl
@[simp] theorem State.writeBytes_fault (s : State) (a : Nat) (vs : List Byte) :
    (s.writeBytes a vs).fault = s.fault := rfl
@[simp] theorem State.writeBytes_code (s : State) (a : Nat) (vs : List Byte) :
    (s.writeBytes a vs).code = s.code := rfl
@[simp] theorem State.writeBytes_buf (s : State) (a : Nat) (vs : List Byte) :
    (s.writeBytes a vs).buf = Memory.writeList s.fill s.buf a vs := rfl
@[simp] theorem State.writeBytes_fill (s : State) (a : Nat) (vs : List Byte) :
    (s.writeBytes a vs).fill = s.fill := rfl
@[simp] theorem State.writeBytes_resets (s : State) (a : Nat) (vs : List Byte) :
    (s.writeBytes a vs).resets = s.resets := rfl
@[simp] theorem State.writeBytes_cap (s : State) (a : Nat) (vs : List Byte) : (s.writeBytes a vs).cap = s.cap := rfl
@[simp] theorem State.writeBytes_pending (s : State) (a : Nat) (vs : List Byte) :
    (s.writeBytes a vs).pending = s.pending := rfl
@[simp] theorem State.writeBytes_observed (s : State) (a : Nat) (vs : List Byte) :
    (s.writeBytes a vs).observed = s.observed := rfl

/-! ### `State.writeBlock` -/

@[simp] theorem State.writeBlock_key (s : State) (i : Nat) (b : Block) : (s.writeBlock i b).key = s.key := rfl
@[simp] theorem State.writeBlock_iv (s : State) (i : Nat) (b : Block) : (s.writeBlock i b).iv = s.iv := rfl
@[simp] theorem State.writeBlock_bs (s : State) (i : Nat) (b : Block) : (s.writeBlock i b).bs = s.bs := rfl
@[simp] theorem State.writeBlock_len (s : State) (i : Nat) (b : Block) : (s.writeBlock i b).len = s.len := rfl
@[simp] theorem State.writeBlock_result (s : State) (i : Nat) (b : Block) :
    (s.writeBlock i b).result = s.result := rfl
@[simp] theorem State.writeBlock_fault (s : State) (i : Nat) (b : Block) : (s.writeBlock i b).fault = s.fault := rfl
@[simp] theorem State.writeBlock_code (s : State) (i : Nat) (b : Block) : (s.writeBlock i b).code = s.code := rfl
@[simp] theorem State.writeBlock_buf (s : State) (i : Nat) (b : Block) :
    (s.writeBlock i b).buf = Memory.writeList s.fill s.buf (16 * i) b.toList := rfl
@[simp] theorem State.writeBlock_fill (s : State) (i : Nat) (b : Block) : (s.writeBlock i b).fill = s.fill := rfl
@[simp] theorem State.writeBlock_resets (s : State) (i : Nat) (b : Block) :
    (s.writeBlock i b).resets = s.resets := rfl
@[simp] theorem State.writeBlock_cap (s : State) (i : Nat) (b : Block) : (s.writeBlock i b).cap = s.cap := rfl
@[simp] theorem State.writeBlock_pending (s : State) (i : Nat) (b : Block) :
    (s.writeBlock i b).pending = s.pending := rfl
@[simp] theorem State.writeBlock_observed (s : State) (i : Nat) (b : Block) :
    (s.writeBlock i b).observed = s.observed := rfl

/-! ### `State.setLen` -/

@[simp] theorem State.setLen_key (s : State) (n : Nat) : (s.setLen n).key = s.key := rfl
@[simp] theorem State.setLen_iv (s : State) (n : Nat) : (s.setLen n).iv = s.iv := rfl
@[simp] theorem State.setLen_bs (s : State) (n : Nat) : (s.setLen n).bs = s.bs := rfl
@[simp] theorem State.setLen_len (s : State) (n : Nat) : (s.setLen n).len = BitVec.ofNat 16 n := rfl
@[simp] theorem State.setLen_result (s : State) (n : Nat) : (s.setLen n).result = s.result := rfl
@[simp] theorem State.setLen_fault (s : State) (n : Nat) : (s.setLen n).fault = s.fault := rfl
@[simp] theorem State.setLen_code (s : State) (n : Nat) : (s.setLen n).code = s.code := rfl
@[simp] theorem State.setLen_buf (s : State) (n : Nat) : (s.setLen n).buf = s.buf := rfl
@[simp] theorem State.setLen_fill (s : State) (n : Nat) : (s.setLen n).fill = s.fill := rfl
@[simp] theorem State.setLen_resets (s : State) (n : Nat) : (s.setLen n).resets = s.resets := rfl
@[simp] theorem State.setLen_cap (s : State) (n : Nat) : (s.setLen n).cap = s.cap := rfl
@[simp] theorem State.setLen_pending (s : State) (n : Nat) : (s.setLen n).pending = s.pending := rfl
@[simp] theorem State.setLen_observed (s : State) (n : Nat) : (s.setLen n).observed = s.observed := rfl

/-! ### `State.setResult` -/

@[simp] theorem State.setResult_key (s : State) (p : Nat) : (s.setResult p).key = s.key := rfl
@[simp] theorem State.setResult_iv (s : State) (p : Nat) : (s.setResult p).iv = s.iv := rfl
@[simp] theorem State.setResult_bs (s : State) (p : Nat) : (s.setResult p).bs = s.bs := rfl
@[simp] theorem State.setResult_len (s : State) (p : Nat) : (s.setResult p).len = s.len := rfl
@[simp] theorem State.setResult_result (s : State) (p : Nat) : (s.setResult p).result = BitVec.ofNat 8 p := rfl
@[simp] theorem State.setResult_fault (s : State) (p : Nat) : (s.setResult p).fault = s.fault := rfl
@[simp] theorem State.setResult_code (s : State) (p : Nat) : (s.setResult p).code = s.code := rfl
@[simp] theorem State.setResult_buf (s : State) (p : Nat) : (s.setResult p).buf = s.buf := rfl
@[simp] theorem State.setResult_fill (s : State) (p : Nat) : (s.setResult p).fill = s.fill := rfl
@[simp] theorem State.setResult_resets (s : State) (p : Nat) : (s.setResult p).resets = s.resets := rfl
@[simp] theorem State.setResult_cap (s : State) (p : Nat) : (s.setResult p).cap = s.cap := rfl
@[simp] theorem State.setResult_pending (s : State) (p : Nat) : (s.setResult p).pending = s.pending := rfl
@[simp] theorem State.setResult_observed (s : State) (p : Nat) : (s.setResult p).observed = s.observed := rfl

/-! ### `State.finish` -/

@[simp] theorem State.finish_key (s : State) (c : ResultCode) : (s.finish c).key = s.key := rfl
@[simp] theorem State.finish_iv (s : State) (c : ResultCode) : (s.finish c).iv = s.iv := rfl
@[simp] theorem State.finish_bs (s : State) (c : ResultCode) : (s.finish c).bs = s.bs := rfl
@[simp] theorem State.finish_len (s : State) (c : ResultCode) : (s.finish c).len = s.len := rfl
@[simp] theorem State.finish_result (s : State) (c : ResultCode) : (s.finish c).result = s.result := rfl
@[simp] theorem State.finish_fault (s : State) (c : ResultCode) : (s.finish c).fault = s.fault := rfl
@[simp] theorem State.finish_code (s : State) (c : ResultCode) : (s.finish c).code = c.bits := rfl
@[simp] theorem State.finish_buf (s : State) (c : ResultCode) : (s.finish c).buf = s.buf := rfl
@[simp] theorem State.finish_fill (s : State) (c : ResultCode) : (s.finish c).fill = s.fill := rfl
@[simp] theorem State.finish_resets (s : State) (c : ResultCode) : (s.finish c).resets = s.resets := rfl
@[simp] theorem State.finish_cap (s : State) (c : ResultCode) : (s.finish c).cap = s.cap := rfl
@[simp] theorem State.finish_pending (s : State) (c : ResultCode) : (s.finish c).pending = s.pending := rfl
@[simp] theorem State.finish_observed (s : State) (c : ResultCode) : (s.finish c).observed = s.observed := rfl

/-! ### `State.raiseFault` -/

@[simp] theorem State.raiseFault_key (s : State) (c : FaultCode) : (s.raiseFault c).key = s.key := rfl
@[simp] theorem State.raiseFault_iv (s : State) (c : FaultCode) : (s.raiseFault c).iv = s.iv := rfl
@[simp] theorem State.raiseFault_bs (s : State) (c : FaultCode) : (s.raiseFault c).bs = s.bs := rfl
@[simp] theorem State.raiseFault_len (s : State) (c : FaultCode) : (s.raiseFault c).len = s.len := rfl
@[simp] theorem State.raiseFault_result (s : State) (c : FaultCode) : (s.raiseFault c).result = s.result := rfl
@[simp] theorem State.raiseFault_fault (s : State) (c : FaultCode) : (s.raiseFault c).fault = true := rfl
@[simp] theorem State.raiseFault_code (s : State) (c : FaultCode) : (s.raiseFault c).code = c.bits := rfl
@[simp] theorem State.raiseFault_buf (s : State) (c : FaultCode) : (s.raiseFault c).buf = s.buf := rfl
@[simp] theorem State.raiseFault_fill (s : State) (c : FaultCode) : (s.raiseFault c).fill = s.fill := rfl
@[simp] theorem State.raiseFault_resets (s : State) (c : FaultCode) : (s.raiseFault c).resets = s.resets := rfl
@[simp] theorem State.raiseFault_cap (s : State) (c : FaultCode) : (s.raiseFault c).cap = s.cap := rfl
@[simp] theorem State.raiseFault_pending (s : State) (c : FaultCode) : (s.raiseFault c).pending = s.pending := rfl
@[simp] theorem State.raiseFault_observed (s : State) (c : FaultCode) : (s.raiseFault c).observed = s.observed := rfl

/-! ### `State.observe` -/

@[simp] theorem State.observe_key (s : State) (v : Byte) : (s.observe v).key = s.key := rfl
@[simp] theorem State.observe_iv (s : State) (v : Byte) : (s.observe v).iv = s.iv := rfl
@[simp] theorem State.observe_bs (s : State) (v : Byte) : (s.observe v).bs = s.bs := rfl
@[simp] theorem State.observe_len (s : State) (v : Byte) : (s.observe v).len = s.len := rfl
@[simp] theorem State.observe_result (s : State) (v : Byte) : (s.observe v).result = s.result := rfl
@[simp] theorem State.observe_fault (s : State) (v : Byte) : (s.observe v).fault = s.fault := rfl
@[simp] theorem State.observe_code (s : State) (v : Byte) : (s.observe v).code = s.code := rfl
@[simp] theorem State.observe_buf (s : State) (v : Byte) : (s.observe v).buf = s.buf := rfl
@[simp] theorem State.observe_fill (s : State) (v : Byte) : (s.observe v).fill = s.fill := rfl
@[simp] theorem State.observe_resets (s : State) (v : Byte) : (s.observe v).resets = s.resets := rfl
@[simp] theorem State.observe_cap (s : State) (v : Byte) : (s.observe v).cap = s.cap := rfl
@[simp] theorem State.observe_pending (s : State) (v : Byte) : (s.observe v).pending = s.pending := rfl
@[simp] theorem State.observe_observed (s : State) (v : Byte) : (s.observe v).observed = s.observed ++ [v] := rfl

/-! ### `State.sending` -/

@[simp] theorem State.sending_key (s : State) (es : List HostEvent) : (s.sending es).key = s.key := rfl
@[simp] theorem State.sending_iv (s : State) (es : List HostEvent) : (s.sending es).iv = s.iv := rfl
@[simp] theorem State.sending_bs (s : State) (es : List HostEvent) : (s.sending es).bs = s.bs := rfl
@[simp] theorem State.sending_len (s : State) (es : List HostEvent) : (s.sending es).len = s.len := rfl
@[simp] theorem State.sending_result (s : State) (es : List HostEvent) : (s.sending es).result = s.result := rfl
@[simp] theorem State.sending_fault (s : State) (es : List HostEvent) : (s.sending es).fault = s.fault := rfl
@[simp] theorem State.sending_code (s : State) (es : List HostEvent) : (s.sending es).code = s.code := rfl
@[simp] theorem State.sending_buf (s : State) (es : List HostEvent) : (s.sending es).buf = s.buf := rfl
@[simp] theorem State.sending_fill (s : State) (es : List HostEvent) : (s.sending es).fill = s.fill := rfl
@[simp] theorem State.sending_resets (s : State) (es : List HostEvent) : (s.sending es).resets = s.resets := rfl
@[simp] theorem State.sending_cap (s : State) (es : List HostEvent) : (s.sending es).cap = s.cap := rfl
@[simp] theorem State.sending_pending (s : State) (es : List HostEvent) : (s.sending es).pending = es := rfl
@[simp] theorem State.sending_observed (s : State) (es : List HostEvent) : (s.sending es).observed = s.observed := rfl

/-! ### `State.resetEngine` -/

@[simp] theorem State.resetEngine_key (s : State) : (s.resetEngine).key = Vector.replicate 16 0x00 := rfl
@[simp] theorem State.resetEngine_iv (s : State) : (s.resetEngine).iv = Vector.replicate 16 0x00 := rfl
@[simp] theorem State.resetEngine_bs (s : State) : (s.resetEngine).bs = 16 := rfl
@[simp] theorem State.resetEngine_len (s : State) : (s.resetEngine).len = 0 := rfl
@[simp] theorem State.resetEngine_result (s : State) : (s.resetEngine).result = 0 := rfl
@[simp] theorem State.resetEngine_fault (s : State) : (s.resetEngine).fault = false := rfl
@[simp] theorem State.resetEngine_code (s : State) : (s.resetEngine).code = 0 := rfl
@[simp] theorem State.resetEngine_buf (s : State) : (s.resetEngine).buf = [] := rfl
@[simp] theorem State.resetEngine_fill (s : State) : (s.resetEngine).fill = Config.clearedBuf s := rfl
@[simp] theorem State.resetEngine_resets (s : State) : (s.resetEngine).resets = s.resets + 1 := rfl
@[simp] theorem State.resetEngine_cap (s : State) : (s.resetEngine).cap = s.cap := rfl
@[simp] theorem State.resetEngine_pending (s : State) : (s.resetEngine).pending = s.pending := rfl
@[simp] theorem State.resetEngine_observed (s : State) : (s.resetEngine).observed = s.observed := rfl

/-! ### Reads of `BUF` through updates that do not touch it -/

@[simp] theorem State.setLen_readBuf (s : State) (n a : Nat) : (s.setLen n).readBuf a = s.readBuf a := rfl
@[simp] theorem State.setResult_readBuf (s : State) (p a : Nat) : (s.setResult p).readBuf a = s.readBuf a := rfl
@[simp] theorem State.finish_readBuf (s : State) (c : ResultCode) (a : Nat) :
    (s.finish c).readBuf a = s.readBuf a := rfl
@[simp] theorem State.raiseFault_readBuf (s : State) (c : FaultCode) (a : Nat) :
    (s.raiseFault c).readBuf a = s.readBuf a := rfl
@[simp] theorem State.observe_readBuf (s : State) (v : Byte) (a : Nat) : (s.observe v).readBuf a = s.readBuf a := rfl
@[simp] theorem State.sending_readBuf (s : State) (es : List HostEvent) (a : Nat) :
    (s.sending es).readBuf a = s.readBuf a := rfl
@[simp] theorem State.setLen_readBlock (s : State) (n i : Nat) : (s.setLen n).readBlock i = s.readBlock i := rfl

/-! ### The state after reset -/

theorem State.reset_canonical : Memory.wf State.reset.fill State.reset.buf := by
  simp [State.reset, State.resetWith, Memory.wf]

theorem State.resetEngine_canonical (s : State) : Memory.wf s.resetEngine.fill s.resetEngine.buf := by
  simp [Memory.wf]

end Sys2Proof.Machine
end

