-- ==== Sys2Proof/Laws/Ops.lean ====
section
/-! SUPPORT. Laws/Ops.lean: for each shared operation, once, everything it can do. -/

namespace Sys2Proof.Machine

/-! ### Bytes and blocks of `BUF` -/

theorem State.readBuf_writeBuf (s : State) (a b : Nat) (v : Byte) :
    (s.writeBuf a v).readBuf b = if b = a then v else s.readBuf b :=
  Memory.read_write s.fill s.buf a b v

theorem State.readBuf_writeBytes (s : State) (a b : Nat) (vs : List Byte) :
    (s.writeBytes a vs).readBuf b = if a ≤ b ∧ b < a + vs.length then vs.getD (b - a) 0 else s.readBuf b :=
  Memory.read_writeList s.fill vs s.buf a b

theorem State.readBlock_get (s : State) (i j : Nat) (hj : j < 16) :
    (s.readBlock i)[j] = s.readBuf (16 * i + j) := by
  simp [State.readBlock]

theorem xorBlock_get (a b : Block) (j : Nat) (hj : j < 16) : (xorBlock a b)[j] = a[j] ^^^ b[j] := by
  simp [xorBlock]

/-- Exclusive-or with the same block twice cancels. -/
theorem xorBlock_xorBlock (a b : Block) : xorBlock (xorBlock a b) b = a := by
  ext j hj
  simp [xorBlock]

/-- Two blocks are equal when their bytes are. -/
theorem Block.ext_get {a b : Block} (h : ∀ j (hj : j < 16), a[j] = b[j]) : a = b := Vector.ext h

/-- A block write stores byte `j` of the block at byte `j` of the block's place and nothing elsewhere. -/
theorem State.readBuf_writeBlock (s : State) (i a : Nat) (b : Block) :
    (s.writeBlock i b).readBuf a =
      if a / 16 = i then b[a % 16]'(Nat.mod_lt a (by decide)) else s.readBuf a := by
  rw [State.writeBlock, State.readBuf_writeBytes]
  have hlen : b.toList.length = 16 := by simp
  by_cases h : a / 16 = i
  · have hin : 16 * i ≤ a ∧ a < 16 * i + b.toList.length := by rw [hlen]; omega
    have hsub : a - 16 * i = a % 16 := by omega
    rw [if_pos hin, if_pos h, hsub, List.getD_eq_getElem _ _ (by rw [hlen]; omega)]
    simp
  · have hin : ¬ (16 * i ≤ a ∧ a < 16 * i + b.toList.length) := by rw [hlen]; omega
    rw [if_neg hin, if_neg h]

theorem State.readBlock_writeBlock_self (s : State) (i : Nat) (b : Block) : (s.writeBlock i b).readBlock i = b := by
  refine Block.ext_get fun j hj => ?_
  have hdiv : (16 * i + j) / 16 = i := by omega
  have hmod : (16 * i + j) % 16 = j := by omega
  simp only [State.readBlock_get _ _ _ hj, State.readBuf_writeBlock, hdiv, if_true, hmod]

theorem State.readBlock_writeBlock_ne (s : State) {i k : Nat} (h : k ≠ i) (b : Block) :
    (s.writeBlock i b).readBlock k = s.readBlock k := by
  refine Block.ext_get fun j hj => ?_
  have hdiv : ¬ (16 * k + j) / 16 = i := by omega
  simp only [State.readBlock_get _ _ _ hj, State.readBuf_writeBlock, hdiv, if_false]

/-- Two states with the same `BUF` read the same block. -/
theorem State.readBlock_congr {s t : State} (h : ∀ a, s.readBuf a = t.readBuf a) (i : Nat) :
    s.readBlock i = t.readBlock i := by
  simp only [State.readBlock, h]

/-! ### The tests at issue -/

/-- Everything that can come of a legal command code other than CLR's. -/
theorem issued_cases (command : State → State) (s : State) :
    (s.fault = true ∧ issued command s = s) ∨
    (s.fault = false ∧ s.cap.val < s.len.toNat ∧ issued command s = s.raiseFault .capacity) ∨
    (s.accepts ∧ issued command s = command s) := by
  unfold issued State.accepts
  by_cases hf : s.fault = true
  · exact .inl ⟨hf, by simp [hf]⟩
  · have hf : s.fault = false := by simpa using hf
    by_cases hc : s.cap.val < s.len.toNat
    · exact .inr (.inl ⟨hf, hc, by simp [hf, hc]⟩)
    · exact .inr (.inr ⟨⟨hf, by omega⟩, by simp [hf, hc]⟩)

/-- A command that is accepted stays so when blocks of the message are written. -/
theorem State.accepts_writeBlock (s : State) (i : Nat) (b : Block) : (s.writeBlock i b).accepts ↔ s.accepts := Iff.rfl

theorem issued_of_accepts {s : State} (h : s.accepts) (command : State → State) : issued command s = command s := by
  rcases issued_cases command s with ⟨hf, _⟩ | ⟨_, hc, _⟩ | ⟨_, he⟩
  · simp [State.accepts, hf] at h
  · exact absurd h.2 (by omega)
  · exact he

/-- Everything that can come of the codec's test of `BS`. -/
theorem withBlockSize_cases (command : Nat → State → State) (s : State) :
    (s.bs.toNat = 0 ∧ withBlockSize command s = s.raiseFault .invalidBlockSize) ∨
    (1 ≤ s.bs.toNat ∧ s.bs.toNat ≤ 255 ∧ withBlockSize command s = command s.bs.toNat s) := by
  unfold withBlockSize
  by_cases h : s.bs.toNat = 0
  · exact .inl ⟨h, by simp [h]⟩
  · exact .inr ⟨by omega, by omega, by simp [h]⟩

/-! ### Padding -/

theorem padLength_bounds {bs : Nat} (n : Nat) (h : 1 ≤ bs) : 1 ≤ padLength bs n ∧ padLength bs n ≤ bs := by
  have := Nat.mod_lt n (show 0 < bs by omega)
  unfold padLength
  omega

/-- The padded length: the next multiple of the block size. -/
theorem add_padLength {bs : Nat} (n : Nat) (h : 1 ≤ bs) : n + padLength bs n = bs * (n / bs + 1) := by
  have h1 := Nat.mod_lt n (show 0 < bs by omega)
  have h2 := Nat.div_add_mod n bs
  unfold padLength
  rw [Nat.mul_add, Nat.mul_one]
  omega

/-- Everything `Pad(bs)` can do: it faults for want of room, or it writes the pad bytes and `LEN`. -/
theorem padMessage_cases (bs : Nat) (s : State) :
    (s.cap.val < s.len.toNat + padLength bs s.len.toNat ∧ padMessage bs s = .error .capacity) ∨
    (s.len.toNat + padLength bs s.len.toNat ≤ s.cap.val ∧
      padMessage bs s = .ok (padLength bs s.len.toNat,
        (s.writeBytes s.len.toNat (List.replicate (padLength bs s.len.toNat)
          (BitVec.ofNat 8 (padLength bs s.len.toNat)))).setLen (s.len.toNat + padLength bs s.len.toNat))) := by
  unfold padMessage
  by_cases h : s.cap.val < s.len.toNat + padLength bs s.len.toNat
  · exact .inl ⟨h, by simp [h]⟩
  · exact .inr ⟨by omega, by simp [h]⟩

/-- A length that the capacity bounds survives the 16 bits of `LEN`. -/
theorem State.setLen_toNat (s : State) {n : Nat} (c : Cap) (h : n ≤ c.val) : (s.setLen n).len.toNat = n := by
  have := c.upper
  simp only [State.setLen_len, BitVec.toNat_ofNat]
  omega

/-- The bytes of `BUF` after the pad bytes are written. -/
theorem readBuf_padded (s : State) (bs n a : Nat) :
    ((s.writeBytes s.len.toNat (List.replicate (padLength bs s.len.toNat)
      (BitVec.ofNat 8 (padLength bs s.len.toNat)))).setLen n).readBuf a = s.paddedByte bs a := by
  rw [State.setLen_readBuf, State.readBuf_writeBytes, List.length_replicate, State.paddedByte]
  split
  · rename_i h
    rw [List.getD_eq_getElem _ _ (by rw [List.length_replicate]; omega), List.getElem_replicate]
  · rfl

/-- What `Strippable(bs)` says when it answers `yes(p)`. -/
theorem strippable_some {bs p : Nat} {s : State} (h : strippable bs s = some p) :
    ValidPadding bs s.len.toNat s.readBuf p := by
  unfold strippable at h
  simp only at h
  split at h
  · cases h
  split at h
  · cases h
  split at h
  · cases h
  split at h
  · rename_i h1 h2 h3 h4
    cases h
    rw [List.all_eq_true] at h4
    refine ⟨by omega, by omega, by omega, by omega, fun j hj => ?_⟩
    simpa using h4 j (List.mem_range.mpr hj)
  · cases h

/-- The pad length of a strippable message is no longer than the message. -/
theorem ValidPadding.le {bs n p : Nat} {byteAt : Nat → Byte} (h : ValidPadding bs n byteAt p) : p ≤ n := by
  have := Nat.le_of_dvd h.1 (Nat.dvd_of_mod_eq_zero h.2.1)
  have := h.2.2.2.1
  omega

/-- Everything `Strip(bs)` can do. -/
theorem stripPadding_cases (bs : Nat) (s : State) :
    (∃ p, strippable bs s = some p ∧ p ≤ s.len.toNat ∧ stripPadding bs s = s.setLen (s.len.toNat - p)) ∨
    (strippable bs s = none ∧ stripPadding bs s = s) := by
  unfold stripPadding
  cases h : strippable bs s with
  | some p => exact .inl ⟨p, rfl, (strippable_some h).le, rfl⟩
  | none => exact .inr ⟨rfl, rfl⟩

/-! ### The chainer's frames and loops -/

/-- Everything an encrypt command can do. -/
theorem paddedThen_cases (loop : State → State) (s : State) :
    (s.cap.val < s.len.toNat + padLength 16 s.len.toNat ∧ paddedThen loop s = s.raiseFault .capacity) ∨
    (s.len.toNat + padLength 16 s.len.toNat ≤ s.cap.val ∧
      paddedThen loop s = (loop ((s.writeBytes s.len.toNat (List.replicate (padLength 16 s.len.toNat)
          (BitVec.ofNat 8 (padLength 16 s.len.toNat)))).setLen
            (s.len.toNat + padLength 16 s.len.toNat))).finish .ok) := by
  unfold paddedThen
  rcases padMessage_cases 16 s with ⟨h, he⟩ | ⟨h, he⟩
  · exact .inl ⟨h, by rw [he]⟩
  · exact .inr ⟨h, by rw [he]⟩

/-- Everything a decrypt command can do. -/
theorem alignedThen_cases (loop : State → State) (s : State) :
    ((s.len.toNat = 0 ∨ s.len.toNat % 16 ≠ 0) ∧ alignedThen loop s = s.raiseFault .invalidLength) ∨
    (0 < s.len.toNat ∧ s.len.toNat % 16 = 0 ∧ alignedThen loop s = (stripPadding 16 (loop s)).finish .ok) := by
  unfold alignedThen
  by_cases h : s.len.toNat = 0 ∨ s.len.toNat % 16 ≠ 0
  · exact .inl ⟨h, by rw [if_pos h]⟩
  · exact .inr ⟨by omega, by omega, by rw [if_neg h]⟩

/-- `t` is `s` with other bytes in `BUF`. -/
def sameButBuf (s t : State) : Prop := t = { s with buf := t.buf }

theorem sameButBuf.refl (s : State) : sameButBuf s s := rfl

theorem sameButBuf.writeBlock {s t : State} (h : sameButBuf s t) (i : Nat) (b : Block) :
    sameButBuf s (t.writeBlock i b) := by
  unfold sameButBuf at *
  rw [h]
  rfl

/-- An update of `BUF` alone leaves every register and every field of the model alone. -/
theorem sameButBuf.fields {s t : State} (h : sameButBuf s t) :
    t.key = s.key ∧ t.iv = s.iv ∧ t.bs = s.bs ∧ t.len = s.len ∧ t.result = s.result ∧ t.fault = s.fault ∧
    t.code = s.code ∧ t.fill = s.fill ∧ t.cap = s.cap ∧ t.pending = s.pending ∧ t.observed = s.observed ∧
    t.resets = s.resets := by
  unfold sameButBuf at h
  rw [h]
  simp

theorem ecbLoop_sameButBuf (f : Block → Block) (s : State) (n : Nat) : sameButBuf s (ecbLoop f s n) := by
  induction n with
  | zero => exact sameButBuf.refl s
  | succ n ih => exact ih.writeBlock n _

theorem cbcEncLoop_sameButBuf (f : Block → Block) (s : State) (n : Nat) : sameButBuf s (cbcEncLoop f s n).1 := by
  induction n with
  | zero => exact sameButBuf.refl s
  | succ n ih => exact ih.writeBlock n _

theorem cbcDecLoop_sameButBuf (f : Block → Block) (s : State) (n : Nat) : sameButBuf s (cbcDecLoop f s n).1 := by
  induction n with
  | zero => exact sameButBuf.refl s
  | succ n ih => exact ih.writeBlock n _

/-- A block at or above the blocks processed reads as before. -/
theorem readBlock_of_blocksOver {s t : State} {n : Nat} {out : Nat → Block}
    (h : ∀ a, t.readBuf a = blocksOver n out s.readBuf a) {k : Nat} (hk : n ≤ k) : t.readBlock k = s.readBlock k := by
  refine Block.ext_get fun j hj => ?_
  have hge : ¬ 16 * k + j < 16 * n := by omega
  simp only [State.readBlock_get _ _ _ hj, h, blocksOver, hge, if_false]

/-- A processed block reads as its output. -/
theorem readBlock_of_blocksOver_lt {t : State} {n : Nat} {out : Nat → Block} {rest : Nat → Byte}
    (h : ∀ a, t.readBuf a = blocksOver n out rest a) {k : Nat} (hk : k < n) : t.readBlock k = out k := by
  refine Block.ext_get fun j hj => ?_
  have hlt : 16 * k + j < 16 * n := by omega
  have hdiv : (16 * k + j) / 16 = k := by omega
  have hmod : (16 * k + j) % 16 = j := by omega
  simp only [State.readBlock_get _ _ _ hj, h, blocksOver, hlt, if_true, hdiv, hmod]

/-- Writing block `n` extends the blocks processed by one. -/
theorem blocksOver_succ {s t : State} {n : Nat} {out : Nat → Block}
    (h : ∀ a, t.readBuf a = blocksOver n out s.readBuf a) {b : Block} (hb : b = out n) (a : Nat) :
    (t.writeBlock n b).readBuf a = blocksOver (n + 1) out s.readBuf a := by
  rw [State.readBuf_writeBlock, h, hb]
  unfold blocksOver
  by_cases hn : a / 16 = n
  · have h1 : a < 16 * (n + 1) := by omega
    rw [if_pos hn, if_pos h1]
    simp only [hn]
  · rw [if_neg hn]
    by_cases hlt : a < 16 * n
    · rw [if_pos hlt, if_pos (show a < 16 * (n + 1) by omega)]
    · rw [if_neg hlt, if_neg (show ¬ a < 16 * (n + 1) by omega)]

/-- The bytes of `BUF` after the ECB block loop. -/
theorem ecbLoop_readBuf (f : Block → Block) (s : State) (n a : Nat) :
    (ecbLoop f s n).readBuf a = blocksOver n (fun i => f (s.readBlock i)) s.readBuf a := by
  induction n generalizing a with
  | zero => simp [ecbLoop, blocksOver]
  | succ n ih =>
    exact blocksOver_succ ih (by rw [readBlock_of_blocksOver ih (Nat.le_refl n)]) a

@[simp] theorem chained_zero (iv : Block) (cipher : Nat → Block) : chained iv cipher 0 = iv := rfl

@[simp] theorem chained_succ (iv : Block) (cipher : Nat → Block) (i : Nat) :
    chained iv cipher (i + 1) = cipher i := rfl

@[simp] theorem cbcCipher_zero (f : Block → Block) (iv : Block) (plain : Nat → Block) :
    cbcCipher f iv plain 0 = f (xorBlock (plain 0) iv) := rfl

@[simp] theorem cbcCipher_succ (f : Block → Block) (iv : Block) (plain : Nat → Block) (i : Nat) :
    cbcCipher f iv plain (i + 1) = f (xorBlock (plain (i + 1)) (cbcCipher f iv plain i)) := rfl

/-- `CHAIN` before block `n` of CBC_ENC, and the bytes of `BUF`. -/
theorem cbcEncLoop_spec (f : Block → Block) (s : State) (n : Nat) :
    (cbcEncLoop f s n).2 = chained s.iv (cbcCipher f s.iv s.readBlock) n ∧
    ∀ a, (cbcEncLoop f s n).1.readBuf a = blocksOver n (cbcCipher f s.iv s.readBlock) s.readBuf a := by
  induction n with
  | zero => exact ⟨rfl, fun a => by simp [cbcEncLoop, blocksOver]⟩
  | succ n ih =>
    have hc : f (xorBlock ((cbcEncLoop f s n).1.readBlock n) (cbcEncLoop f s n).2) =
        cbcCipher f s.iv s.readBlock n := by
      rw [ih.1, readBlock_of_blocksOver ih.2 (Nat.le_refl n)]
      cases n <;> rfl
    exact ⟨hc, blocksOver_succ ih.2 hc⟩

/-- `CHAIN` before block `n` of CBC_DEC, and the bytes of `BUF`. -/
theorem cbcDecLoop_spec (f : Block → Block) (s : State) (n : Nat) :
    (cbcDecLoop f s n).2 = chained s.iv s.readBlock n ∧
    ∀ a, (cbcDecLoop f s n).1.readBuf a = blocksOver n (cbcPlain f s.iv s.readBlock) s.readBuf a := by
  induction n with
  | zero => exact ⟨rfl, fun a => by simp [cbcDecLoop, blocksOver]⟩
  | succ n ih =>
    have hr := readBlock_of_blocksOver ih.2 (Nat.le_refl n)
    refine ⟨hr, blocksOver_succ ih.2 ?_⟩
    rw [ih.1, hr]
    rfl

/-! ### Runs of the host -/

theorem runEvents_nil (s : State) : runEvents [] s = .next { s with pending := [] } := rfl

/-- A run takes its first event and then the rest, where the event leaves the rest to be sent. -/
theorem runEvents_cons {e : HostEvent} {events : List HostEvent} {s t : State}
    (h : hostEvent e { s with pending := events } = .next t) (hp : t.pending = events) :
    runEvents (e :: events) s = runEvents events t := by
  subst hp
  have hstep : core.step { s with pending := e :: t.pending } = .next t := h
  simp only [runEvents, List.length_cons, Host.Core.run, hstep]
  rfl

@[simp] theorem andThen_next (s : State) (f : State → Host.Outcome State Fault Refusal) :
    andThen (.next s) f = f s := rfl

/-- After `GETLEN` the host knows the length that the two bytes spell. -/
theorem State.lengthRead_of_observed {s : State} {seen : List Byte} {lo hi : Byte}
    (h : s.observed = seen ++ [lo, hi]) : s.lengthRead = 256 * hi.toNat + lo.toNat := by
  simp [State.lengthRead, h]

/-! ### The canonical form through the operations -/

/-- A byte sequence written inside the buffer keeps `BUF` canonical and in range. -/
theorem writeBytes_keeps {s : State} (h : s.Inv) {a : Nat} {vs : List Byte} (ha : a + vs.length ≤ s.cap.val) :
    (s.writeBytes a vs).Inv where
  canonical := Memory.wf_writeList vs h.canonical a
  inBuffer c hc := by
    rcases Memory.mem_writeList vs hc with ⟨_, h2⟩ | hc
    · exact Nat.lt_of_lt_of_le h2 ha
    · exact h.inBuffer c hc
  status := h.status

end Sys2Proof.Machine
end

