-- ==== Sys2Proof/Laws/PerInstr.lean ====
section
/-! SUPPORT. Laws/PerInstr.lean: what is said of every command as syntax, one lemma per command. -/

/-- A command is well formed, its byte decodes to it, and the byte is the pattern of its row of `30_encoding.md` R82. -/
def Sys2Proof.Laws.DecodeEncode.Statement (i : Sys2Proof.Instr) : Prop :=
  i.wf = true ∧ Sys2Proof.decode (Sys2Proof.encode i) = .ok i ∧
  ∃ r ∈ Sys2Proof.opcodeTable, r.instr = i ∧ r.pattern = Sys2Proof.encode i

theorem Sys2Proof.Laws.DecodeEncode.pad : Sys2Proof.Laws.DecodeEncode.Statement .pad :=
  ⟨rfl, rfl, _, .head _, rfl, rfl⟩

theorem Sys2Proof.Laws.DecodeEncode.strip : Sys2Proof.Laws.DecodeEncode.Statement .strip :=
  ⟨rfl, rfl, _, .tail _ (.head _), rfl, rfl⟩

theorem Sys2Proof.Laws.DecodeEncode.validate : Sys2Proof.Laws.DecodeEncode.Statement .validate :=
  ⟨rfl, rfl, ⟨0xFF, 0x03, .validate⟩, by decide, rfl, rfl⟩

theorem Sys2Proof.Laws.DecodeEncode.ecbEnc : Sys2Proof.Laws.DecodeEncode.Statement .ecbEnc :=
  ⟨rfl, rfl, ⟨0xFF, 0x10, .ecbEnc⟩, by decide, rfl, rfl⟩

theorem Sys2Proof.Laws.DecodeEncode.ecbDec : Sys2Proof.Laws.DecodeEncode.Statement .ecbDec :=
  ⟨rfl, rfl, ⟨0xFF, 0x11, .ecbDec⟩, by decide, rfl, rfl⟩

theorem Sys2Proof.Laws.DecodeEncode.cbcEnc : Sys2Proof.Laws.DecodeEncode.Statement .cbcEnc :=
  ⟨rfl, rfl, ⟨0xFF, 0x12, .cbcEnc⟩, by decide, rfl, rfl⟩

theorem Sys2Proof.Laws.DecodeEncode.cbcDec : Sys2Proof.Laws.DecodeEncode.Statement .cbcDec :=
  ⟨rfl, rfl, ⟨0xFF, 0x13, .cbcDec⟩, by decide, rfl, rfl⟩

theorem Sys2Proof.Laws.DecodeEncode.clr : Sys2Proof.Laws.DecodeEncode.Statement .clr :=
  ⟨rfl, rfl, ⟨0xFF, 0xFF, .clr⟩, by decide, rfl, rfl⟩
end

