-- ==== Sys2Proof/Tests/Slice0.lean ====
section
/-! SUPPORT. Tests/Slice0.lean: bytes decoded, ill-formed terms refused, one step of each command on the vectors of
`95_test_vectors.md`, and for every statement with hypotheses a state and operands that meet them. -/

namespace Sys2Proof.Tests

open Sys2Proof.Machine

/-! ### Decoding: each byte written out from `30_encoding.md` R81 and R82 (unit, then func) -/

theorem test_decode_pad : decode 0b00000001#8 = .ok .pad := by decide
theorem test_decode_strip : decode 0b00000010#8 = .ok .strip := by decide
theorem test_decode_validate : decode 0b00000011#8 = .ok .validate := by decide
theorem test_decode_ecbEnc : decode 0b00010000#8 = .ok .ecbEnc := by decide
theorem test_decode_ecbDec : decode 0b00010001#8 = .ok .ecbDec := by decide
theorem test_decode_cbcEnc : decode 0b00010010#8 = .ok .cbcEnc := by decide
theorem test_decode_cbcDec : decode 0b00010011#8 = .ok .cbcDec := by decide
theorem test_decode_clr : decode 0b11111111#8 = .ok .clr := by decide

/-- Bytes that R84 reserves: `0x00`, and a chainer code whose bits 3:2 are not `00` (vector F9). -/
theorem test_decode_reserved :
    decode 0x00 = .error (.reservedCode 0x00) ∧ decode 0x14 = .error (.reservedCode 0x14) := by decide

/-- No two rows of the opcode map select one byte. -/
theorem test_rows_disjoint : opcodeTable.Pairwise fun r r' => ∀ c : Byte, ¬ (r.selects c ∧ r'.selects c) := by
  decide +kernel

theorem test_table_word :
    decodeTableWord 8 0x13 = some .cbcDec ∧ decodeTableWord 8 0x20 = none ∧ decodeTableWord 16 0x13 = none := by decide

/-! ### Ill-formed terms, one for each check of WellFormed (capacity 256) -/

theorem test_wf_refuses_buf : Reg.wf 256 (.buf 256) = false ∧ Reg.wf 256 (.buf 255) = true := by decide
theorem test_wf_refuses_wr : Stmt.wf 256 0 (.wr (.buf 256) 0x00) = false := by decide
theorem test_wf_refuses_rd : Stmt.wf 256 0 (.rd (.buf 256)) = false := by decide
theorem test_wf_refuses_setLen : Stmt.wf 256 0 (.setLen 65536) = false := by decide
theorem test_wf_refuses_setBs : Stmt.wf 256 0 (.setBs 256) = false := by decide
theorem test_wf_refuses_ldKey : Stmt.wf 256 0 (.ldKey (List.replicate 15 0x00)) = false := by decide
theorem test_wf_refuses_ldIv : Stmt.wf 256 0 (.ldIv (List.replicate 17 0x00)) = false := by decide
theorem test_wf_refuses_ldBuf : Stmt.wf 256 0 (.ldBuf 255 [0x00, 0x00]) = false := by decide
theorem test_wf_refuses_load : Stmt.wf 32 0 (.load (List.replicate 33 0x00)) = false := by decide
theorem test_wf_refuses_getMsg : Stmt.wf 256 257 .getMsg = false ∧ Stmt.wf 256 256 .getMsg = true := by decide
theorem test_wf_refuses_rdBuf : Stmt.wf 256 0 (.rdBuf 256 1) = false := by decide

/-! ### States for the steps and the witnesses -/

/-- `E_toy` of `95_test_vectors.md` section 1.1. -/
def toyE (k b : Block) : Block :=
  Vector.ofFn fun j => b[(j.val + 1) % 16]'(Nat.mod_lt _ (by decide)) + k[j]

/-- `D_toy` of the same section. -/
def toyD (k d : Block) : Block :=
  Vector.ofFn fun m =>
    d[(m.val + 15) % 16]'(Nat.mod_lt _ (by decide)) - k[(m.val + 15) % 16]'(Nat.mod_lt _ (by decide))

/-- `K_toy`. -/
def toyKey : Block := Vector.ofFn fun j => BitVec.ofNat 8 j.val

/-- `IV_toy`. -/
def toyIv : Block :=
  ⟨#[0xF0, 0xE1, 0xD2, 0xC3, 0xB4, 0xA5, 0x96, 0x87, 0x78, 0x69, 0x5A, 0x4B, 0x3C, 0x2D, 0x1E, 0x0F], rfl⟩

def cap256 : Cap := ⟨256, by decide, by decide⟩

/-- A machine of capacity 256 with `K_toy`, `IV_toy`, the given block size and length, nothing written to `BUF`. -/
def sized (bs len : Nat) : State :=
  { State.resetWith cap256 [] with key := toyKey, iv := toyIv, bs := BitVec.ofNat 8 bs, len := BitVec.ofNat 16 len }

/-- The same machine with a message in `BUF`. -/
def holding (bs : Nat) (message : List Byte) : State := (sized bs message.length).writeBytes 0 message

/-- A halted machine: `STATUS` reads `0x81`. -/
def halted : State := { sized 16 5 with fault := true, code := 1 }

/-- `ICE ICE BABY` (vector S1). -/
def iceIceBaby : List Byte := [0x49, 0x43, 0x45, 0x20, 0x49, 0x43, 0x45, 0x20, 0x42, 0x41, 0x42, 0x59]

/-- `ECB_ENC` of `ICE ICE BABY` (vector E2). -/
def iceEcb : List Byte :=
  [0x43, 0x46, 0x22, 0x4C, 0x47, 0x4A, 0x26, 0x49, 0x49, 0x4B, 0x63, 0x0F, 0x10, 0x11, 0x12, 0x58]

/-- `CBC_ENC` of `ICE ICE BABY` (vector C2). -/
def iceCbc : List Byte :=
  [0xA2, 0x98, 0xE5, 0x00, 0xEA, 0xD8, 0xAD, 0x41, 0x30, 0x21, 0x1C, 0x43, 0x35, 0x27, 0x19, 0xC8]

/-- What software sees of an outcome: the `STATUS` byte, `LEN`, `RESULT` and the first `n` bytes of `BUF`. -/
def shows (n : Nat) (s : State) : Byte × Nat × Nat × List Byte :=
  (statusByte s, s.len.toNat, s.result.toNat, s.readBytes 0 n)

/-! ### One step of each command -/

/-- Vector PD8: `BS = 8`, three bytes. -/
theorem test_pad : shows 9 (stateAfter State.reset (exec .pad (holding 8 [0xAA, 0xBB, 0xCC]))) =
    (0x00, 8, 5, [0xAA, 0xBB, 0xCC, 0x05, 0x05, 0x05, 0x05, 0x05, 0x00]) := by decide

/-- Vector PD19: `BS = 3`, `LEN = 255`: 258 bytes do not fit 256. -/
theorem test_pad_capacity : shows 0 (stateAfter State.reset (exec .pad (sized 3 255))) = (0x85, 255, 0, []) := by decide

/-- Vector SV1: the padding goes, its bytes stay in `BUF`. -/
theorem test_strip :
    shows 16 (stateAfter State.reset (exec .strip (holding 16 (iceIceBaby ++ [0x04, 0x04, 0x04, 0x04])))) =
      (0x00, 12, 0, iceIceBaby ++ [0x04, 0x04, 0x04, 0x04]) := by decide

/-- Vector SV2: malformed padding is left, with `OK`. -/
theorem test_strip_malformed :
    shows 16 (stateAfter State.reset (exec .strip (holding 16 (iceIceBaby ++ [0x05, 0x05, 0x05, 0x05])))) =
      (0x00, 16, 0, iceIceBaby ++ [0x05, 0x05, 0x05, 0x05]) := by decide

/-- Vector SV2: VALIDATE rejects it with `InvalidPadding` and no fault. -/
theorem test_validate_malformed :
    shows 16 (stateAfter State.reset (exec .validate (holding 16 (iceIceBaby ++ [0x05, 0x05, 0x05, 0x05])))) =
      (0x02, 16, 0, iceIceBaby ++ [0x05, 0x05, 0x05, 0x05]) := by decide

/-- Vector SV18: `BS = 3`, fifteen bytes, `p = 3`. -/
theorem test_validate :
    shows 15 (stateAfter State.reset (exec .validate (holding 3 (iceIceBaby ++ [0x03, 0x03, 0x03])))) =
      (0x00, 12, 0, iceIceBaby ++ [0x03, 0x03, 0x03]) := by decide

/-- Vector E2. -/
theorem test_ecbEnc : shows 16 (issued (ecbEncCommand toyE) (holding 16 iceIceBaby)) = (0x00, 16, 0, iceEcb) := by decide

/-- Vector F18: `LEN = 256`, no room for a block of padding. -/
theorem test_ecbEnc_capacity :
    shows 0 (stateAfter State.reset (exec .ecbEnc (sized 16 256))) = (0x85, 256, 0, []) := by decide

/-- Vector E2, decrypted. -/
theorem test_ecbDec : shows 16 (issued (ecbDecCommand toyD) (holding 16 iceEcb)) =
    (0x00, 12, 0, iceIceBaby ++ [0x04, 0x04, 0x04, 0x04]) := by decide

/-- Vector F5: `LEN = 5`. -/
theorem test_ecbDec_length : shows 0 (stateAfter State.reset (exec .ecbDec (sized 16 5))) = (0x81, 5, 0, []) := by decide

/-- Vector C2. -/
theorem test_cbcEnc : shows 16 (issued (cbcEncCommand toyE) (holding 16 iceIceBaby)) = (0x00, 16, 0, iceCbc) := by decide

/-- Vector C6, seventeen bytes: the second block is chained with the first ciphertext block. -/
theorem test_cbcEnc_chain :
    (issued (cbcEncCommand toyE) (holding 16 ((List.range 17).map fun j => BitVec.ofNat 8 (j + 1)))).readBytes 0 32 =
      [0xE3, 0xD2, 0xC9, 0xB4, 0xA7, 0x96, 0x95, 0x78, 0x6B, 0x5A, 0x51, 0x3C, 0x2F, 0x1E, 0x2D, 0x00,
       0xDD, 0xC7, 0xBD, 0xAB, 0x9D, 0x9F, 0x7D, 0x6B, 0x5D, 0x67, 0x3D, 0x2B, 0x1D, 0x2F, 0x1D, 0x01] := by decide

/-- Vector C2, decrypted. -/
theorem test_cbcDec : shows 16 (issued (cbcDecCommand toyD) (holding 16 iceCbc)) =
    (0x00, 12, 0, iceIceBaby ++ [0x04, 0x04, 0x04, 0x04]) := by decide

/-- Vector F14: `LEN = 257` with `CAP = 256`: `Capacity` comes before `InvalidLength`. -/
theorem test_cbcDec_capacity : shows 0 (stateAfter State.reset (exec .cbcDec (sized 16 257))) = (0x85, 257, 0, []) := by
  decide

/-- Vector H8: CLR is taken while a fault is latched. -/
theorem test_clr : (stateAfter State.reset (exec .clr halted)).hasResetValues := by
  simp only [State.hasResetValues]
  decide

/-- Vectors H2 and H3: PAD and a reserved code are ignored while a fault is latched. -/
theorem test_halted : exec .pad halted = .next halted ∧ issueByte 0x00 halted = .next halted := ⟨rfl, rfl⟩

/-- Vector M4: what is written to `IV` is read back; the key is not (vector M3). -/
theorem test_read_iv :
    hostRead (sized 16 0) 0x00020 = 0xF0 ∧ hostRead (sized 16 0) 0x0002F = 0x0F ∧
      hostRead (sized 16 0) 0x0001F = 0x00 := by decide

/-- Vector M6: the first offset past `BUF`. -/
theorem test_past_buf :
    hostWrite 0x10100 0x99 (sized 16 0) = .next (sized 16 0) ∧ hostRead (sized 16 0) 0x10100 = 0x00 := ⟨rfl, by decide⟩

/-- The step after `withFetchWord` runs the command, from the reset state too: VALIDATE of the empty message (vector
SV11), then a reserved byte. -/
theorem test_withFetchWord :
    statusByte (stateAfter State.reset (step (State.reset.withFetchWord 8 0x03))) = 0x02 ∧
      (stateAfter State.reset (step (State.reset.withFetchWord 8 0x20))).code = 3 := by decide

/-- `GETMSG` reads the length that `SETLEN` has just written, not the one before. -/
theorem test_getMsg_after_setLen :
    (stateAfter State.reset (runProgram [.setLen 5, .getMsg] (holding 16 iceIceBaby))).observed =
      [0x05, 0x00, 0x49, 0x43, 0x45, 0x20, 0x49] := by decide

/-! ### Witnesses: for each statement with hypotheses, inputs that meet them, at the edges of their ranges -/

theorem toy_prim_inverse : PrimInverse toyE toyD := by
  intro k b
  ext m hm
  have hi : (m + 15 + 1) % 16 = m := by omega
  simp [toyE, toyD, hi]

/-- Messages of length 16 that end in padding of length 16, 4 and 1, and one that does not. -/
def padded16 : State := holding 16 (List.replicate 16 0x10)
def padded4 : State := holding 16 (iceIceBaby ++ [0x04, 0x04, 0x04, 0x04])
def padded1 : State := holding 16 (iceIceBaby ++ [0x04, 0x04, 0x04, 0x01])
def unpadded : State := holding 16 (iceIceBaby ++ [0x05, 0x05, 0x05, 0x04])

theorem padded_lengths :
    ValidPadding 16 padded16.len.toNat padded16.readBuf 16 ∧ ValidPadding 16 padded4.len.toNat padded4.readBuf 4 ∧
      ValidPadding 16 padded1.len.toNat padded1.readBuf 1 := by
  simp only [ValidPadding]
  decide

/-- The last byte of a message is the only length its padding can have, so one failed case refutes all. -/
theorem not_padded {n : Nat} {byteAt : Nat → Byte} {bs : Nat}
    (h : ¬ ∀ j < (byteAt (n - 1)).toNat, (byteAt (n - 1 - j)).toNat = (byteAt (n - 1)).toNat) :
    ¬ ∃ p, ValidPadding bs n byteAt p := by
  rintro ⟨p, _, _, h1, _, h2⟩
  have hp := h2 0 (by omega)
  rw [Nat.sub_zero] at hp
  exact h (by rw [hp]; exact h2)

theorem unpadded_has_no_padding : ¬ ∃ p, ValidPadding 16 unpadded.len.toNat unpadded.readBuf p := not_padded (by decide)

/-- `LEN` at and past the capacity of 256. -/
theorem witness_accepts :
    (sized 16 0).accepts ∧ (sized 16 256).accepts ∧ padded16.accepts ∧ padded4.accepts ∧ padded1.accepts ∧
      unpadded.accepts ∧ (sized 16 257).fault = false ∧ (sized 16 257).cap.val < (sized 16 257).len.toNat := by
  simp only [State.accepts]
  decide

theorem witness_CommandBytesDecodeAsTabulated :
    (0x00 : Byte) ∉ ([0x01, 0x02, 0x03, 0x10, 0x11, 0x12, 0x13, 0xFF] : List Byte) ∧
      (0xFE : Byte) ∉ ([0x01, 0x02, 0x03, 0x10, 0x11, 0x12, 0x13, 0xFF] : List Byte) := by decide

theorem witness_DecodeAndEncodeAgree :
    Instr.cbcDec.wf = true ∧ decode 0x13 = .ok .cbcDec ∧ ∀ i : Instr, (0x14 : Byte) ≠ encode i := by
  refine ⟨rfl, rfl, fun i => ?_⟩
  cases i <;> decide

theorem witness_StepRunsTheDecodedCommand :
    ({ sized 16 3 with pending := [.write 0x00000 0x01, .reset] } : State).pending =
      .write 0x00000 0x01 :: [.reset] ∧
    decode 0x01 = .ok .pad ∧ Instr.pad.wf = true ∧ (sized 16 3).pending = [] := ⟨rfl, rfl, rfl, rfl⟩

theorem witness_IssueTestsInOrder :
    halted.fault = true ∧ (0x01 : Byte) ≠ 0xFF ∧ (0x14 : Byte) ∉ ordinaryCodes ∧ (0x14 : Byte) ≠ 0xFF ∧
      (0x13 : Byte) ∈ ordinaryCodes ∧ (sized 16 257).fault = false ∧
      (sized 16 257).cap.val < (sized 16 257).len.toNat ∧ (sized 16 256).fault = false := by decide

theorem witness_ReservedCodesRaiseIllegalCommand :
    (∀ i : Instr, (0x00 : Byte) ≠ encode i) ∧ (∀ i : Instr, (0xFE : Byte) ≠ encode i) ∧ (sized 16 0).fault = false ∧
      halted.fault = true := by
  refine ⟨fun i => ?_, fun i => ?_, rfl, rfl⟩ <;> cases i <;> decide

theorem witness_HaltedEngineIgnoresCommands :
    halted.fault = true ∧ (0x13 : Byte) ≠ 0xFF ∧ (0x10000 : Addr) ≠ 0 ∧ (0x00000 : Addr) ≠ 0x00001 := by decide

/-- A fault raised, and a rejection, each from a state with no fault latched. -/
theorem witness_FaultsArePrecise :
    (sized 3 255).fault = false ∧
      exec .pad (sized 3 255) = .next (stateAfter (sized 3 255) (exec .pad (sized 3 255))) ∧
      (stateAfter (sized 3 255) (exec .pad (sized 3 255))).fault = true ∧
      (stateAfter unpadded (exec .validate unpadded)).code = 2 ∧ unpadded.fault = false := by
  refine ⟨rfl, rfl, by decide, by decide, rfl⟩

theorem witness_OnlyClrAndResetLeaveAFault :
    halted.fault = true ∧ hostEvent (.write 0x00000 0xFF) halted = .next halted.resetEngine ∧
      hostEvent .reset halted = .next halted.resetEngine ∧ hostEvent (.write 0x00000 0x01) halted = .next halted :=
  ⟨rfl, rfl, rfl, rfl⟩

/-- Lengths 0, 15, 16, 17 and 256 for the decrypt commands. -/
theorem witness_InvalidLengthIsTheDecryptPrecondition :
    ¬ (sized 16 0).wholeBlocks ∧ ¬ (sized 16 15).wholeBlocks ∧ (sized 16 16).wholeBlocks ∧ ¬ (sized 16 17).wholeBlocks ∧
      (sized 16 256).wholeBlocks ∧ (sized 16 17).accepts ∧
      (stateAfter (sized 16 17) (exec .cbcDec (sized 16 17))).code = 1 := by
  simp only [State.wholeBlocks, State.accepts]
  decide

theorem witness_InvalidPaddingIsValidateRejecting :
    unpadded.accepts ∧ unpadded.bs ≠ 0 ∧ unpadded.wholeBlocks ∧
      (stateAfter unpadded (exec .validate unpadded)).code = 2 := by
  simp only [State.wholeBlocks, State.accepts]
  decide

theorem witness_InvalidBlockSizeIsTheCodecPrecondition :
    (sized 0 5).accepts ∧ (sized 0 5).bs = 0 ∧ (stateAfter (sized 0 5) (exec .strip (sized 0 5))).code = 4 := by
  simp only [State.accepts]
  decide

/-- Room for padding at its edges (vectors PD15, PD18, PD11, PD20, F21), and each origin of `Capacity`. -/
theorem witness_CapacityAtIssueAndInPad :
    (sized 16 240).fits 16 ∧ ¬ (sized 16 256).fits 16 ∧ (sized 255 0).fits 255 ∧ ¬ (sized 255 255).fits 255 ∧
      (sized 16 256).fault = false ∧ (sized 16 256).len.toNat ≤ (sized 16 256).cap.val ∧ (sized 16 256).bs ≠ 0 ∧
      (stateAfter (sized 16 257) (exec .strip (sized 16 257))).code = 5 ∧
      (stateAfter (sized 16 256) (exec .cbcEnc (sized 16 256))).code = 5 := by
  simp only [State.fits]
  decide

/-- Block sizes 1 and 255, with room and without. -/
theorem witness_PadProcedureAppends :
    (sized 1 255).fits 1 ∧ ¬ (sized 1 256).fits 1 ∧ (sized 255 0).fits 255 ∧ ¬ (sized 255 255).fits 255 ∧
      (sized 1 256).len.toNat ≤ (sized 1 256).cap.val ∧ (sized 255 255).len.toNat ≤ (sized 255 255).cap.val := by
  simp only [State.fits]
  decide

theorem witness_PadProcedureFacts :
    ∃ t, padMessage 255 (sized 255 0) = .ok (255, t) ∧ (sized 255 0).len.toNat ≤ (sized 255 0).cap.val :=
  ⟨_, rfl, by decide⟩

theorem witness_StrippableIsValidPadding :
    strippable 16 padded16 = some 16 ∧ strippable 16 padded1 = some 1 ∧ strippable 16 unpadded = none ∧
      padded16.len.toNat ≤ padded16.cap.val := by decide

theorem witness_PadAppendsPadding :
    (sized 0 5).bs = 0 ∧ (sized 0 5).accepts ∧
      ((sized 16 256).bs ≠ 0 ∧ ¬ (sized 16 256).fits (sized 16 256).bs.toNat ∧ (sized 16 256).accepts) ∧
      ((sized 16 240).bs ≠ 0 ∧ (sized 16 240).fits (sized 16 240).bs.toNat ∧ (sized 16 240).accepts) ∧
      ((sized 1 255).bs ≠ 0 ∧ (sized 1 255).fits (sized 1 255).bs.toNat ∧ (sized 1 255).accepts) := by
  simp only [State.fits, State.accepts]
  decide

/-- STRIP and VALIDATE, with the padding of `padded_lengths` and without. -/
theorem witness_StripRemovesBestEffort :
    (sized 0 5).bs = 0 ∧ (sized 0 5).accepts ∧ padded16.bs ≠ 0 ∧
      ValidPadding padded16.bs.toNat padded16.len.toNat padded16.readBuf 16 ∧ unpadded.bs ≠ 0 ∧
      ¬ ∃ p, ValidPadding unpadded.bs.toNat unpadded.len.toNat unpadded.readBuf p :=
  ⟨rfl, ⟨rfl, by decide⟩, by decide, padded_lengths.1, by decide, unpadded_has_no_padding⟩

theorem witness_ValidateAcceptsOrRejects :
    padded1.accepts ∧ padded1.bs ≠ 0 ∧ ValidPadding padded1.bs.toNat padded1.len.toNat padded1.readBuf 1 ∧
      unpadded.accepts ∧ unpadded.bs ≠ 0 ∧
      ¬ ∃ p, ValidPadding unpadded.bs.toNat unpadded.len.toNat unpadded.readBuf p :=
  ⟨⟨rfl, by decide⟩, by decide, padded_lengths.2.2, ⟨rfl, by decide⟩, by decide, unpadded_has_no_padding⟩

theorem witness_StripAgreesWithValidate :
    (∃ t u, exec .strip padded4 = .next t ∧ exec .validate padded4 = .next u ∧ padded4.bs ≠ 0) ∧ padded4.accepts ∧
      padded4.len.toNat ≤ padded4.cap.val ∧ ValidPadding 16 padded4.len.toNat padded4.readBuf 4 ∧
      ¬ ∃ p, ValidPadding 16 unpadded.len.toNat unpadded.readBuf p :=
  ⟨⟨_, _, rfl, rfl, by decide⟩, ⟨rfl, by decide⟩, by decide, padded_lengths.2.1, unpadded_has_no_padding⟩

/-- Each listed case: last byte 0 (SV9), above `BS` (SV4), an inconsistent run, and the source's own bytes. -/
theorem witness_ValidateRejectsTheListedCases :
    (sized 16 16).accepts ∧ (sized 16 16).bs ≠ 0 ∧ 0 < (sized 16 16).len.toNat ∧ (sized 16 16).readBuf 15 = 0 ∧
      (holding 16 (iceIceBaby ++ [0x20, 0x49, 0x43, 0x11])).bs.toNat <
        ((holding 16 (iceIceBaby ++ [0x20, 0x49, 0x43, 0x11])).readBuf 15).toNat ∧
      unpadded.readBuf 12 = 0x05 ∧ unpadded.readBuf 13 = 0x05 ∧ unpadded.readBuf 14 = 0x05 ∧ unpadded.readBuf 15 = 0x04 ∧
      (unpadded.readBuf 15).toNat = 4 ∧ unpadded.readBuf (15 - 1) ≠ unpadded.readBuf 15 := by
  simp only [State.accepts]
  decide

theorem witness_PadThenStripRestoresTheMessage :
    (sized 16 240).accepts ∧ (sized 16 240).bs ≠ 0 ∧ (sized 16 240).fits (sized 16 240).bs.toNat ∧
      (sized 255 0).accepts ∧ (sized 255 0).bs ≠ 0 ∧ (sized 255 0).fits (sized 255 0).bs.toNat := by
  simp only [State.fits, State.accepts]
  decide

theorem witness_StripMayAcceptWhatPadDidNotMake :
    (padded1.accepts ∧ padded1.bs ≠ 0 ∧ 0 < padded1.len.toNat ∧ padded1.len.toNat % padded1.bs.toNat = 0 ∧
      padded1.readBuf (padded1.len.toNat - 1) = 0x01) ∧
    unpadded.accepts ∧ unpadded.bs ≠ 0 ∧ unpadded.fits unpadded.bs.toNat ∧
      ¬ ∃ p, ValidPadding unpadded.bs.toNat unpadded.len.toNat unpadded.readBuf p :=
  ⟨⟨⟨rfl, by decide⟩, by decide, by decide, by decide, by decide⟩, ⟨rfl, by decide⟩, by decide,
    by simp only [State.fits]; decide, unpadded_has_no_padding⟩

/-- The encrypt commands on 0, 12 and 240 bytes, which fit, and on 256, which do not; the decrypt commands on 16 and 256
bytes, and on 0 and 17, which are no whole blocks. -/
theorem witness_EcbEncEncryptsEachBlock :
    (sized 16 0).fits 16 ∧ (holding 16 iceIceBaby).fits 16 ∧ (sized 16 240).fits 16 ∧ ¬ (sized 16 256).fits 16 ∧
      (holding 16 iceIceBaby).accepts ∧ (sized 16 240).accepts ∧ (sized 16 256).accepts := by
  simp only [State.fits, State.accepts]
  decide

theorem witness_EcbDecDecryptsEachBlock :
    (holding 16 iceEcb).wholeBlocks ∧ (sized 16 256).wholeBlocks ∧ ¬ (sized 16 0).wholeBlocks ∧
      ¬ (sized 16 17).wholeBlocks ∧ (holding 16 iceEcb).accepts ∧ (sized 16 17).accepts := by
  simp only [State.wholeBlocks, State.accepts]
  decide

theorem witness_CbcEncEncryptsInAChain :
    (holding 16 iceIceBaby).accepts ∧ (holding 16 iceIceBaby).fits 16 ∧ (sized 16 255).accepts ∧ (sized 16 255).fits 16 ∧
      (sized 16 256).accepts ∧ ¬ (sized 16 256).fits 16 := by
  simp only [State.fits, State.accepts]
  decide

theorem witness_CbcDecDecryptsInAChain :
    (holding 16 iceCbc).accepts ∧ (holding 16 iceCbc).wholeBlocks ∧ (sized 16 32).accepts ∧ (sized 16 32).wholeBlocks ∧
      (sized 16 15).accepts ∧ ¬ (sized 16 15).wholeBlocks := by
  simp only [State.wholeBlocks, State.accepts]
  decide

/-- Two equal blocks (vector E5 has them) and two different ones, in one command and across two. -/
theorem witness_EcbMapsEqualBlocksToEqualBlocks :
    (holding 16 (List.replicate 32 0x41)).accepts ∧ (holding 16 (List.replicate 32 0x41)).fits 16 ∧
      1 < (holding 16 (List.replicate 32 0x41)).paddedBlocks ∧
      (holding 16 (List.replicate 32 0x41)).paddedBlock 0 = (holding 16 (List.replicate 32 0x41)).paddedBlock 1 ∧
      (holding 16 (List.replicate 32 0x41)).paddedBlock 0 ≠ (holding 16 iceIceBaby).paddedBlock 0 ∧
      (holding 16 iceIceBaby).accepts ∧ (holding 16 iceIceBaby).fits 16 ∧ 0 < (holding 16 iceIceBaby).paddedBlocks ∧
      (holding 16 (List.replicate 32 0x41)).key = (holding 16 iceIceBaby).key ∧ PrimInverse toyE toyD := by
  refine ⟨⟨rfl, by decide⟩, by simp only [State.fits]; decide, by decide, by decide, by decide, ⟨rfl, by decide⟩,
    by simp only [State.fits]; decide, by decide, rfl, toy_prim_inverse⟩

theorem witness_DecryptStripsWithoutASignal :
    (sized 16 16).accepts ∧ (sized 16 17).accepts ∧
      exec .cbcDec (sized 16 17) = .next (stateAfter (sized 16 17) (exec .cbcDec (sized 16 17))) ∧
      ∃ t, exec .ecbDec (sized 16 16) = .next t ∧ t.isOk := by
  refine ⟨⟨rfl, by decide⟩, ⟨rfl, by decide⟩, rfl, _, rfl, ?_⟩
  rw [issued_of_accepts ⟨rfl, by decide⟩, ecbDecCommand]
  rcases alignedThen_cases (fun t => ecbLoop (Config.D t.key) t t.blocks) (sized 16 16) with ⟨h, _⟩ | ⟨_, _, he⟩
  · exact absurd h (by decide)
  · have hf := (ecbLoop_sameButBuf (Config.D (sized 16 16).key) (sized 16 16) (sized 16 16).blocks).fields.2.2.2.2.2.1
    rw [he]
    refine ⟨?_, rfl⟩
    rcases stripPadding_cases 16 (ecbLoop (Config.D (sized 16 16).key) (sized 16 16) (sized 16 16).blocks) with
      ⟨p, _, _, hs⟩ | ⟨_, hs⟩ <;> rw [State.finish_fault, hs] <;> exact hf

/-- The round trip at the largest length that fits, and the empty message. -/
theorem witness_DecryptUndoesEncrypt :
    PrimInverse toyE toyD ∧ (sized 16 255).fault = false ∧
      16 * ((sized 16 255).len.toNat / 16 + 1) ≤ (sized 16 255).cap.val ∧ (sized 16 0).fault = false ∧
      16 * ((sized 16 0).len.toNat / 16 + 1) ≤ (sized 16 0).cap.val :=
  ⟨toy_prim_inverse, rfl, by decide, rfl, by decide⟩

theorem witness_CbcBitFlip :
    (sized 16 32).accepts ∧ (sized 16 32).wholeBlocks ∧ 1 < (sized 16 32).len.toNat / 16 ∧
      ∃ t, exec .cbcDec (sized 16 32) = .next t :=
  ⟨⟨rfl, by decide⟩, ⟨by decide, by decide⟩, by decide, _, rfl⟩

/-- A ciphertext of one block, taken from one ECB_ENC (vector E2). -/
theorem witness_EcbBlocksSplice :
    PrimInverse toyE toyD ∧ (holding 16 iceEcb).accepts ∧ (holding 16 iceEcb).wholeBlocks ∧
      ∀ i < (holding 16 iceEcb).len.toNat / 16, (holding 16 iceIceBaby).accepts ∧ (holding 16 iceIceBaby).fits 16 ∧
        (holding 16 iceIceBaby).key = (holding 16 iceEcb).key ∧ 0 < (holding 16 iceIceBaby).paddedBlocks ∧
        (holding 16 iceEcb).readBlock i = (issued (ecbEncCommand toyE) (holding 16 iceIceBaby)).readBlock 0 := by
  refine ⟨toy_prim_inverse, ⟨rfl, by decide⟩, ⟨by decide, by decide⟩, fun i hi => ?_⟩
  have hi : i = 0 := by
    have : (holding 16 iceEcb).len.toNat / 16 = 1 := by decide
    omega
  subst hi
  exact ⟨⟨rfl, by decide⟩, by simp only [State.fits]; decide, rfl, by decide, by decide +kernel⟩

/-- Two states that differ in `BS`, `RESULT`, `IV`, the earlier code and the bytes above the message. -/
theorem witness_ChainerReadsOnlyItsOperands :
    let t : State := { padded4 with bs := 0, result := 0x77, code := 2, iv := Vector.replicate 16 0x00,
                                    fill := List.replicate 32 0xAA }
    padded4.fault = false ∧ t.fault = false ∧ padded4.key = t.key ∧ padded4.len = t.len ∧ padded4.cap = t.cap ∧
      (∀ a < padded4.len.toNat, padded4.readBuf a = t.readBuf a) ∧ padded4.readBuf 16 ≠ t.readBuf 16 := by
  refine ⟨rfl, rfl, rfl, rfl, rfl, by decide, by decide⟩

/-- Two states that differ in `KEY`, `IV`, `RESULT` and the bytes above the message. -/
theorem witness_CodecReadsOnlyItsOperands :
    let t : State := { padded4 with key := toyIv, iv := toyKey, result := 0x77, fill := List.replicate 32 0xAA }
    padded4.fault = false ∧ t.fault = false ∧ padded4.bs = t.bs ∧ padded4.len = t.len ∧ padded4.cap = t.cap ∧
      (∀ a < padded4.len.toNat, padded4.readBuf a = t.readBuf a) ∧ padded4.readBuf 16 ≠ t.readBuf 16 := by
  refine ⟨rfl, rfl, rfl, rfl, rfl, by decide, by decide⟩

theorem witness_CbcCommandsEachStartFromIv :
    (sized 16 239).fault = false ∧ 16 * ((sized 16 239).len.toNat / 16 + 2) ≤ (sized 16 239).cap.val := by decide

theorem witness_CbcWithZeroIvStartsAsEcb :
    let s : State := { sized 16 240 with iv := Vector.replicate 16 0x00 }
    s.accepts ∧ s.fits 16 ∧ s.iv = Vector.replicate 16 0x00 := by
  simp only [State.fits, State.accepts]
  decide

/-- Each row of the map at the edges of its range, with capacity 256. -/
theorem witness_HostTransactionsFollowTheMap :
    (0x0001F : Addr).toNat = 0x00010 + (15 : Fin 16).val ∧ (0x00020 : Addr).toNat = 0x00020 + (0 : Fin 16).val ∧
      (255 < (sized 16 0).cap.val ∧ (0x100FF : Addr).toNat = 0x10000 + 255) ∧
      0x10000 + (sized 16 0).cap.val ≤ (0x10100 : Addr).toNat ∧ 0x10000 + (sized 16 0).cap.val ≤ (0x1FFFF : Addr).toNat ∧
      (0x00030 ≤ (0x0FFFF : Addr).toNat ∧ (0x0FFFF : Addr).toNat ≤ 0x0FFFF) ∧
      0x00006 ≤ (0x00008 : Addr).toNat ∧ (0x00008 : Addr).toNat ≤ 0x0000F := by decide

theorem witness_ReadsAndDataWritesAreIdempotent : (0x1FFFF : Addr) ≠ 0 ∧ (0x00004 : Addr) ≠ 0x00005 := by decide

theorem witness_RegisterMapIsOneToOne :
    Reg.wf 65535 (.buf 65534) = true ∧ locate 256 0x100FF = some (.buf 255) ∧ locate 256 0x10100 = none := by decide

theorem witness_KeyIsObservedOnlyThroughTheChainer :
    ∀ e ∈ [HostEvent.write 0x00010 0x2B, .write 0x00000 0x01, .write 0x00000 0x14, .read 0x00010],
      HostEvent.sparesTheKey e := by
  simp [HostEvent.sparesTheKey]

theorem witness_SetLenWritesLenInEitherOrder :
    Stmt.wf (sized 16 0).cap.val 0 (.setLen 65535) = true ∧ Stmt.wf (sized 16 0).cap.val 0 (.setLen 0) = true := by decide

theorem witness_LoadMakesTheMessage :
    Stmt.wf (sized 16 0).cap.val 0 (.load (List.replicate 256 0x41)) = true ∧ Stmt.wf (sized 16 0).cap.val 0 (.load []) = true := by
  decide +kernel

theorem witness_LdKeyAndLdIvLoadSixteenBytes : iceEcb.length = 16 := by decide

theorem witness_RdBufObservesTheBuffer :
    Stmt.wf (sized 16 0).cap.val 0 (.rdBuf 255 1) = true ∧ Stmt.wf (sized 16 0).cap.val 0 (.rdBuf 256 0) = true := by decide

/-- `GETMSG` at the edges of its range: an empty message, and one that fills `BUF`. -/
theorem witness_GetMsgObservesTheMessage :
    (∃ u, runProgram [.setLen 256] (sized 16 0) = .next u ∧ Stmt.wf u.cap.val u.len.toNat .getMsg = true) ∧
      ∃ u, runProgram [] (sized 16 0) = .next u ∧ Stmt.wf u.cap.val u.len.toNat .getMsg = true :=
  ⟨⟨sized 16 256, rfl, by decide⟩, sized 16 0, rfl, by decide⟩

theorem witness_GetMsgReadsTheLengthJustSet : 256 ≤ (sized 16 3).cap.val ∧ 0 ≤ (sized 16 3).cap.val := by decide

/-- A state with listed bytes meets the invariant. -/
theorem witness_StatusReadsOneOfSixBytes : padded4.Inv ∧ halted.Inv :=
  ⟨⟨by decide, by decide, .inl rfl⟩, ⟨Memory.wf_nil _, by decide, .inl rfl⟩⟩

theorem witness_CommandsObeyTheWriteMatrix :
    ∃ t, exec .pad (sized 16 240) = .next t ∧ t.isOk ∧ Instr.pad ≠ .clr := ⟨_, rfl, ⟨by decide, by decide⟩, by decide⟩

theorem witness_CommandsStayInsideTheBuffer :
    (∃ t, exec .ecbEnc padded4 = .next t) ∧ (∀ c ∈ padded4.buf, c.1 < padded4.cap.val) ∧ Instr.ecbEnc ≠ .clr :=
  ⟨⟨_, rfl⟩, by decide, by decide⟩

theorem witness_EveryStepKeepsTheInvariant :
    let s : State := { padded4 with pending := [.write 0x00000 0x01] }
    s.Inv ∧ ∃ t, step s = .next t ∧ t.len.toNat = 32 :=
  ⟨⟨by decide, by decide, .inl rfl⟩, _, rfl, by decide⟩

theorem witness_RegisterRangesThatHoldAndThatDoNot :
    let s : State := { padded4 with pending := [.write 0x00000 0x01] }
    s.statusLegal ∧ (∃ t, step s = .next t) ∧ ∃ t, exec .pad padded4 = .next t ∧ t.isOk :=
  ⟨.inl rfl, ⟨_, rfl⟩, _, rfl, by decide, by decide⟩

end Sys2Proof.Tests
end

section
/-! # What a command and a step can do to the state

Every command but CLR ends in one of the four ways of `CommandEffect`, and every event of the host in one of the six of
`EventEffect`. What `10_state.md` R27, R34 and R35 say of the registers follows from these two lists of cases. -/

namespace Sys2Proof.Machine

/-! ### Writes to a range of `BUF` -/

/-- `t` comes from `s` by writes to `BUF` at indices from `lo` up to `hi`, and by changes of `LEN`, `RESULT` and
`STATUS.CODE`; the canonical form of `BUF` is kept. -/
structure WritesWithin (lo hi : Nat) (s t : State) : Prop where
  operands : keepsOperands s t
  fault : t.fault = s.fault
  canonical : Memory.wf s.fill s.buf → Memory.wf t.fill t.buf
  listed : ∀ c ∈ t.buf, (lo ≤ c.1 ∧ c.1 < hi) ∨ c ∈ s.buf
  unwritten : ∀ a, a < lo ∨ hi ≤ a → t.readBuf a = s.readBuf a

namespace WritesWithin

variable {lo hi : Nat} {s t : State}

theorem refl (lo hi : Nat) (s : State) : WritesWithin lo hi s s where
  operands := ⟨rfl, rfl, rfl, rfl, rfl, rfl, rfl, rfl⟩
  fault := rfl
  canonical h := h
  listed _ hc := .inr hc
  unwritten _ _ := rfl

theorem setLen (h : WritesWithin lo hi s t) (n : Nat) : WritesWithin lo hi s (t.setLen n) :=
  ⟨h.operands, h.fault, h.canonical, h.listed, h.unwritten⟩

theorem setResult (h : WritesWithin lo hi s t) (p : Nat) : WritesWithin lo hi s (t.setResult p) :=
  ⟨h.operands, h.fault, h.canonical, h.listed, h.unwritten⟩

theorem writeBytes (h : WritesWithin lo hi s t) {a : Nat} {vs : List Byte} (hlo : lo ≤ a)
    (hhi : a + vs.length ≤ hi) : WritesWithin lo hi s (t.writeBytes a vs) where
  operands := h.operands
  fault := h.fault
  canonical hs := Memory.wf_writeList vs (h.canonical hs) a
  listed c hc := by
    rcases Memory.mem_writeList vs hc with hin | hold
    · exact .inl (by omega)
    · exact h.listed c hold
  unwritten b hb := by
    have hout : ¬ (a ≤ b ∧ b < a + vs.length) := by omega
    rw [State.readBuf_writeBytes, if_neg hout, h.unwritten b hb]

theorem writeBlock (h : WritesWithin 0 hi s t) {i : Nat} (b : Block) (hhi : 16 * (i + 1) ≤ hi) :
    WritesWithin 0 hi s (t.writeBlock i b) :=
  h.writeBytes (Nat.zero_le _) (by simp only [Vector.length_toList]; omega)

end WritesWithin

/-! ### The padded state and the block loops -/

/-- The state that `Pad(bs)` answers (`40_padding_codec.md` R101). -/
def State.padded (s : State) (bs : Nat) : State :=
  (s.writeBytes s.len.toNat (List.replicate (padLength bs s.len.toNat)
    (BitVec.ofNat 8 (padLength bs s.len.toNat)))).setLen (s.len.toNat + padLength bs s.len.toNat)

theorem State.padded_len {s : State} {bs : Nat} (hfit : s.len.toNat + padLength bs s.len.toNat ≤ s.cap.val) :
    (s.padded bs).len.toNat = s.len.toNat + padLength bs s.len.toNat :=
  State.setLen_toNat _ s.cap hfit

theorem State.padded_writesWithin (s : State) (bs : Nat) {lo : Nat} (hlo : lo ≤ s.len.toNat) :
    WritesWithin lo (s.len.toNat + padLength bs s.len.toNat) s (s.padded bs) :=
  ((WritesWithin.refl _ _ s).writeBytes hlo (by simp)).setLen _

/-- A block loop of the chainer: it writes blocks 0, 1, … of the message in turn and changes nothing else. -/
def WritesBlocks (loop : State → State) : Prop :=
  ∀ s : State, ∃ after : Nat → State, after 0 = s ∧ loop s = after s.blocks ∧
    ∀ n, ∃ b, after (n + 1) = (after n).writeBlock n b

theorem ecbLoop_writesBlocks (E : Prim) : WritesBlocks fun t => ecbLoop (E t.key) t t.blocks :=
  fun s => ⟨ecbLoop (E s.key) s, rfl, rfl, fun _ => ⟨_, rfl⟩⟩

theorem cbcEncLoop_writesBlocks (E : Prim) : WritesBlocks fun t => (cbcEncLoop (E t.key) t t.blocks).1 :=
  fun s => ⟨fun n => (cbcEncLoop (E s.key) s n).1, rfl, rfl, fun _ => ⟨_, rfl⟩⟩

theorem cbcDecLoop_writesBlocks (D : Prim) : WritesBlocks fun t => (cbcDecLoop (D t.key) t t.blocks).1 :=
  fun s => ⟨fun n => (cbcDecLoop (D s.key) s n).1, rfl, rfl, fun _ => ⟨_, rfl⟩⟩

theorem WritesBlocks.sameButBuf {loop : State → State} (h : WritesBlocks loop) (s : State) :
    sameButBuf s (loop s) := by
  obtain ⟨after, h0, hloop, hsucc⟩ := h s
  rw [hloop]
  induction s.blocks with
  | zero => rw [h0]; exact sameButBuf.refl s
  | succ n ih =>
    obtain ⟨b, hb⟩ := hsucc n
    rw [hb]
    exact ih.writeBlock n b

/-- After earlier writes inside the message, a block loop adds writes inside the message only. -/
theorem WritesBlocks.writesWithin {loop : State → State} (h : WritesBlocks loop) {s t : State}
    (hst : WritesWithin 0 t.len.toNat s t) : WritesWithin 0 t.len.toNat s (loop t) := by
  obtain ⟨after, h0, hloop, hsucc⟩ := h t
  have upTo : ∀ n, 16 * n ≤ t.len.toNat → WritesWithin 0 t.len.toNat s (after n) := by
    intro n
    induction n with
    | zero => intro _; rwa [h0]
    | succ n ih =>
      intro hn
      obtain ⟨b, hb⟩ := hsucc n
      rw [hb]
      exact (ih (by omega)).writeBlock b hn
  rw [hloop]
  exact upTo t.blocks (Nat.mul_div_le _ _)

/-- `Strip(bs)` lowers `LEN` or leaves it, and does nothing else. -/
theorem stripPadding_eq_setLen (bs : Nat) (s : State) :
    ∃ n ≤ s.len.toNat, stripPadding bs s = s.setLen n := by
  rcases stripPadding_cases bs s with ⟨p, _, _, he⟩ | ⟨_, he⟩
  · exact ⟨_, Nat.sub_le _ p, he⟩
  · exact ⟨_, Nat.le_refl _, by simp [he, State.setLen]⟩

/-! ### Everything a command can do -/

/-- The lowest index of `BUF` that a command may write (`10_state.md` R34). -/
def writeStart (i : Instr) (s : State) : Nat :=
  match i with
  | .pad => s.len.toNat
  | .strip | .validate | .ecbEnc | .ecbDec | .cbcEnc | .cbcDec | .clr => 0

/-- The bound on the indices of `BUF` that a command may write, going from `s` to `t` (R34); 0 where it writes none. -/
def writeEnd (i : Instr) (s t : State) : Nat :=
  match i with
  | .pad | .ecbEnc | .cbcEnc => t.len.toNat
  | .ecbDec | .cbcDec => s.len.toNat
  | .strip | .validate | .clr => 0

/-- What issuing a command other than CLR in state `s` can lead to (`30_encoding.md` R90, `60_exceptions.md` R161). -/
inductive CommandEffect (i : Instr) (s : State) : State → Prop
  /-- A fault is latched (R170). -/
  | ignored (halted : s.fault = true) : CommandEffect i s s
  /-- The command faults (R166). -/
  | faulted (c : FaultCode) : CommandEffect i s (s.raiseFault c)
  /-- VALIDATE rejects the padding (R163). -/
  | rejected (running : s.fault = false) : CommandEffect i s (s.finish .invalidPadding)
  /-- The command ends `OK`. -/
  | completed {u : State} (accepted : s.accepts) (inCap : u.len.toNat ≤ s.cap.val)
      (result : i ≠ .pad → u.result = s.result) (writes : WritesWithin (writeStart i s) (writeEnd i s u) s u) :
      CommandEffect i s (u.finish .ok)

/-- A command that completes writes no index outside `BUF`. -/
theorem writeEnd_le_cap {s u : State} (hs : s.accepts) (hu : u.len.toNat ≤ s.cap.val) (i : Instr) :
    writeEnd i s u ≤ s.cap.val := by
  cases i with
  | pad | ecbEnc | cbcEnc => exact hu
  | ecbDec | cbcDec => exact hs.2
  | strip | validate | clr => exact Nat.zero_le _

theorem issued_effect {i : Instr} {command : State → State} {s : State}
    (h : s.accepts → CommandEffect i s (command s)) : CommandEffect i s (issued command s) := by
  rcases issued_cases command s with ⟨hf, he⟩ | ⟨_, _, he⟩ | ⟨ha, he⟩ <;> rw [he]
  · exact .ignored hf
  · exact .faulted _
  · exact h ha

theorem withBlockSize_effect {i : Instr} {rule : Nat → State → State} {s : State}
    (h : ∀ bs, CommandEffect i s (rule bs s)) : CommandEffect i s (withBlockSize rule s) := by
  rcases withBlockSize_cases rule s with ⟨_, he⟩ | ⟨_, _, he⟩ <;> rw [he]
  · exact .faulted _
  · exact h _

theorem padRule_effect {s : State} (hs : s.accepts) (bs : Nat) : CommandEffect .pad s (padRule bs s) := by
  unfold padRule
  rcases padMessage_cases bs s with ⟨_, he⟩ | ⟨hfit, he⟩ <;> rw [he]
  · exact .faulted _
  · have hlen := State.padded_len hfit
    have hw := (s.padded_writesWithin bs (Nat.le_refl _)).setResult (padLength bs s.len.toNat)
    rw [← hlen] at hfit hw
    exact .completed (u := (s.padded bs).setResult _) hs hfit (fun h => absurd rfl h) hw

/-- A command that ends `OK` with `LEN` at most what it was and nothing else changed has completed. -/
theorem setLen_effect (i : Instr) {s : State} (hs : s.accepts) {n : Nat}
    (hn : n ≤ s.len.toNat) : CommandEffect i s ((s.setLen n).finish .ok) := by
  have hcap : n ≤ s.cap.val := hn.trans hs.2
  refine .completed hs ?_ (fun _ => rfl) ((WritesWithin.refl _ _ s).setLen n)
  rwa [State.setLen_toNat s s.cap hcap]

theorem stripRule_effect {s : State} (hs : s.accepts) (bs : Nat) : CommandEffect .strip s (stripRule bs s) := by
  obtain ⟨n, hn, he⟩ := stripPadding_eq_setLen bs s
  rw [stripRule, he]
  exact setLen_effect .strip hs hn

theorem validateRule_effect {s : State} (hs : s.accepts) (bs : Nat) :
    CommandEffect .validate s (validateRule bs s) := by
  unfold validateRule
  cases strippable bs s with
  | some p => exact setLen_effect .validate hs (Nat.sub_le _ p)
  | none => exact .rejected hs.1

theorem paddedThen_effect {i : Instr} (hi : i = .ecbEnc ∨ i = .cbcEnc) {loop : State → State}
    (hloop : WritesBlocks loop) {s : State} (hs : s.accepts) : CommandEffect i s (paddedThen loop s) := by
  rcases paddedThen_cases loop s with ⟨_, he⟩ | ⟨hfit, he⟩ <;> rw [he]
  · exact .faulted _
  · change CommandEffect i s ((loop (s.padded 16)).finish .ok)
    obtain ⟨-, -, -, hlen, hresult, -⟩ := (hloop.sameButBuf (s.padded 16)).fields
    have hpad := State.padded_len hfit
    have hw := s.padded_writesWithin 16 (Nat.zero_le _)
    rw [← hpad] at hfit hw
    have hwrites := hloop.writesWithin hw
    rw [← hlen] at hfit hwrites
    refine .completed hs hfit (fun _ => hresult) ?_
    rcases hi with rfl | rfl <;> exact hwrites

theorem alignedThen_effect {i : Instr} (hi : i = .ecbDec ∨ i = .cbcDec) {loop : State → State}
    (hloop : WritesBlocks loop) {s : State} (hs : s.accepts) : CommandEffect i s (alignedThen loop s) := by
  rcases alignedThen_cases loop s with ⟨_, he⟩ | ⟨_, _, he⟩ <;> rw [he]
  · exact .faulted _
  · obtain ⟨n, hn, hstrip⟩ := stripPadding_eq_setLen 16 (loop s)
    obtain ⟨-, -, -, hlen, hresult, -⟩ := (hloop.sameButBuf s).fields
    rw [hlen] at hn
    have hcap : n ≤ s.cap.val := hn.trans hs.2
    have hwrites := (hloop.writesWithin (WritesWithin.refl 0 s.len.toNat s)).setLen n
    rw [hstrip]
    refine .completed hs (by rwa [State.setLen_toNat _ s.cap hcap]) (fun _ => hresult) ?_
    rcases hi with rfl | rfl <;> exact hwrites

/-- Everything that `exec` of a command other than CLR can lead to. -/
theorem exec_effect {i : Instr} {s t : State} (hi : i ≠ .clr) (h : exec i s = .next t) : CommandEffect i s t := by
  cases i <;> cases h
  case pad => exact issued_effect fun hs => withBlockSize_effect (padRule_effect hs)
  case strip => exact issued_effect fun hs => withBlockSize_effect (stripRule_effect hs)
  case validate => exact issued_effect fun hs => withBlockSize_effect (validateRule_effect hs)
  case ecbEnc => exact issued_effect (paddedThen_effect (.inl rfl) (ecbLoop_writesBlocks Config.E))
  case ecbDec => exact issued_effect (alignedThen_effect (.inl rfl) (ecbLoop_writesBlocks Config.D))
  case cbcEnc => exact issued_effect (paddedThen_effect (.inr rfl) (cbcEncLoop_writesBlocks Config.E))
  case cbcDec => exact issued_effect (alignedThen_effect (.inr rfl) (cbcDecLoop_writesBlocks Config.D))
  case clr => exact absurd rfl hi

/-! ### Everything a step can do -/

/-- `exec .clr` is the reset transition (`42_system.md` R150). -/
theorem exec_clr (s : State) : exec .clr s = .next s.resetEngine := rfl

/-- What one event of the host can lead to (`20_memory.md` R53 to R55, `70_reset_and_hazards.md` R190). -/
inductive EventEffect (s : State) : State → Prop
  /-- A write to a reserved offset (R54). -/
  | ignored : EventEffect s s
  /-- A read (R53); the host keeps the byte. -/
  | observed (v : Byte) : EventEffect s (s.observe v)
  /-- A write to a register other than `CMD` (R53). -/
  | stored {addr : Addr} {r : Reg} (v : Byte) (place : locate s.cap.val addr = some r) :
      EventEffect s (writeReg s v r)
  /-- A `CMD` write of a reserved code (R84). -/
  | illegal : EventEffect s (illegalCommand s)
  /-- A `CMD` write of a command other than CLR's. -/
  | command {i : Instr} {t : State} (effect : CommandEffect i s t) : EventEffect s t
  /-- The reset input, or a `CMD` write of CLR. -/
  | reset : EventEffect s s.resetEngine

theorem issueByte_effect {c : Byte} {s t : State} (h : issueByte c s = .next t) : EventEffect s t := by
  unfold issueByte at h
  split at h
  · rename_i i _
    by_cases hi : i = .clr
    · rw [hi, exec_clr] at h
      cases h
      exact .reset
    · exact .command (exec_effect hi h)
  · cases h
    exact .illegal

theorem hostWrite_effect {addr : Addr} {v : Byte} {s t : State} (h : hostWrite addr v s = .next t) :
    EventEffect s t := by
  unfold hostWrite at h
  split at h
  · exact issueByte_effect h
  · rename_i hr
    cases h
    exact .stored v hr
  · cases h
    exact .ignored

theorem hostEvent_effect {e : HostEvent} {s t : State} (h : hostEvent e s = .next t) : EventEffect s t := by
  cases e with
  | write addr v => exact hostWrite_effect h
  | read addr => cases h; exact .observed _
  | reset => cases h; exact .reset

/-- A step is idle or takes one event off the host's list. -/
theorem step_cases {s t : State} (h : step s = .next t) : t = s ∨ ∃ rest, EventEffect (s.sending rest) t := by
  unfold step nextEvent at h
  split at h
  · cases h
    exact .inl rfl
  · exact .inr ⟨_, hostEvent_effect h⟩

/-- What every event keeps, and the host's list has no part in, every step keeps. -/
theorem step_keeps {P : State → Prop} (hsend : ∀ s rest, P s → P (s.sending rest))
    (hevent : ∀ s t, P s → EventEffect s t → P t) {s t : State} (hs : P s) (h : step s = .next t) : P t := by
  rcases step_cases h with rfl | ⟨rest, he⟩
  · exact hs
  · exact hevent _ t (hsend s rest hs) he

/-! ### `STATUS` stays legal -/

theorem State.statusLegal_raiseFault (s : State) (c : FaultCode) : (s.raiseFault c).statusLegal := by
  cases c <;> simp [State.statusLegal, FaultCode.bits]

theorem State.statusLegal_finish {s : State} (hs : s.fault = false) (c : ResultCode) :
    (s.finish c).statusLegal := by
  cases c <;> simp [State.statusLegal, hs, ResultCode.bits]

theorem State.statusLegal_resetEngine (s : State) : s.resetEngine.statusLegal := .inl rfl

/-- `STATUS` is legal in a state with the `FAULT` and `CODE` of a legal one. -/
theorem State.statusLegal_congr {s t : State} (hf : t.fault = s.fault) (hc : t.code = s.code)
    (hs : s.statusLegal) : t.statusLegal := by
  unfold State.statusLegal at *
  rwa [hf, hc]

theorem writeReg_status (s : State) (v : Byte) (r : Reg) :
    (writeReg s v r).fault = s.fault ∧ (writeReg s v r).code = s.code := by
  cases r <;> exact ⟨rfl, rfl⟩

theorem CommandEffect.keeps_statusLegal {i : Instr} {s t : State} (hs : s.statusLegal) (h : CommandEffect i s t) :
    t.statusLegal := by
  cases h with
  | ignored => exact hs
  | faulted c => exact s.statusLegal_raiseFault c
  | rejected hf => exact State.statusLegal_finish hf _
  | completed ha _ _ hw => exact State.statusLegal_finish (hw.fault.trans ha.1) _

/-- A reserved code raises `IllegalCommand` or is ignored. -/
theorem illegalCommand_cases (s : State) :
    illegalCommand s = s ∨ illegalCommand s = s.raiseFault .illegalCommand := by
  unfold illegalCommand
  split
  · exact .inl rfl
  · exact .inr rfl

theorem EventEffect.keeps_statusLegal {s t : State} (hs : s.statusLegal) (h : EventEffect s t) : t.statusLegal := by
  cases h with
  | ignored => exact hs
  | observed v => exact hs
  | stored v _ =>
    obtain ⟨hf, hc⟩ := writeReg_status s v _
    exact State.statusLegal_congr hf hc hs
  | illegal =>
    rcases illegalCommand_cases s with he | he <;> rw [he]
    · exact hs
    · exact s.statusLegal_raiseFault _
  | command he => exact he.keeps_statusLegal hs
  | reset => exact s.statusLegal_resetEngine

/-! ### The invariant -/

theorem State.Inv.raiseFault {s : State} (h : s.Inv) (c : FaultCode) : (s.raiseFault c).Inv :=
  ⟨h.canonical, h.inBuffer, s.statusLegal_raiseFault c⟩

theorem State.Inv.resetEngine (s : State) : s.resetEngine.Inv :=
  ⟨s.resetEngine_canonical, by simp, s.statusLegal_resetEngine⟩

theorem CommandEffect.keeps_inv {i : Instr} {s t : State} (hs : s.Inv) (h : CommandEffect i s t) : t.Inv := by
  have hstatus := h.keeps_statusLegal hs.status
  cases h with
  | ignored => exact hs
  | faulted c => exact hs.raiseFault c
  | rejected => exact ⟨hs.canonical, hs.inBuffer, hstatus⟩
  | @completed u ha hcap _ hw =>
    refine ⟨hw.canonical hs.canonical, fun c hc => ?_, hstatus⟩
    obtain ⟨-, -, -, hsame, -⟩ := hw.operands
    change c.1 < u.cap.val
    rw [hsame]
    rcases hw.listed c hc with ⟨_, hlt⟩ | hold
    · exact hlt.trans_le (writeEnd_le_cap ha hcap i)
    · exact hs.inBuffer c hold

/-- The register map has `BUF[a]` for `a < CAP` only (`20_memory.md` R52). -/
theorem lt_of_locate_buf {cap a : Nat} {addr : Addr} (h : locate cap addr = some (.buf a)) : a < cap := by
  unfold locate locateNat at h
  repeat' split at h
  all_goals simp only [Option.some.injEq, Reg.buf.injEq, reduceCtorEq] at h
  omega

theorem writeReg_keeps_inv {s : State} (hs : s.Inv) (v : Byte) {r : Reg} {addr : Addr}
    (hr : locate s.cap.val addr = some r) : (writeReg s v r).Inv := by
  cases r with
  | buf a => exact writeBytes_keeps hs (vs := [v]) (lt_of_locate_buf hr)
  | cmd | status | bs | result | lenL | lenH | capL | capH | key | iv =>
    exact ⟨hs.canonical, hs.inBuffer, hs.status⟩

theorem EventEffect.keeps_inv {s t : State} (hs : s.Inv) (h : EventEffect s t) : t.Inv := by
  cases h with
  | ignored => exact hs
  | observed v => exact ⟨hs.canonical, hs.inBuffer, hs.status⟩
  | stored v hr => exact writeReg_keeps_inv hs v hr
  | illegal =>
    rcases illegalCommand_cases s with he | he <;> rw [he]
    · exact hs
    · exact hs.raiseFault _
  | command he => exact he.keeps_inv hs
  | reset => exact State.Inv.resetEngine s

/-- Settles O51: the idle step keeps every state, and each effect of an event keeps the invariant. -/
theorem everyStepKeepsTheInvariant : Obligations.EveryStepKeepsTheInvariant := by
  unfold Obligations.EveryStepKeepsTheInvariant
  intro s t hs h
  exact step_keeps (P := State.Inv) (fun _ _ hs => ⟨hs.canonical, hs.inBuffer, hs.status⟩)
    (fun _ _ hs he => he.keeps_inv hs) hs h

/-! ### The state after reset -/

theorem State.reset_inv : State.reset.Inv :=
  ⟨State.reset_canonical, by simp [State.reset, State.resetWith], .inl rfl⟩

/-- Settles O52: nothing is listed after reset, and `STATUS` is `OK`. -/
theorem resetMeetsTheInvariant : Obligations.ResetMeetsTheInvariant := State.reset_inv

theorem State.resetEngine_hasResetValues (s : State) : s.resetEngine.hasResetValues :=
  ⟨rfl, rfl, rfl, rfl, rfl, rfl, rfl, by simp [statusByte]⟩

/-- `HostWrite(0x00000, v)` is the issue of `v` (`20_memory.md` R53). -/
theorem hostWrite_cmd (v : Byte) (s : State) : hostWrite 0x00000 v s = issueByte v s := rfl

/-- A byte that decodes runs its command (`30_encoding.md` R90). -/
theorem issueByte_of_decode {c : Byte} {i : Instr} (h : decode c = .ok i) (s : State) : issueByte c s = exec i s := by
  simp only [issueByte, h]

/-- Settles O1: CLR and the reset input are both the reset transition, which sets every register. -/
theorem resetAndClrGiveTheResetState : Obligations.ResetAndClrGiveTheResetState := by
  unfold Obligations.ResetAndClrGiveTheResetState
  obtain ⟨-, hdecode, -⟩ := Sys2Proof.Laws.DecodeEncode.clr
  refine ⟨⟨rfl, rfl, rfl, rfl, rfl, rfl, rfl, rfl⟩, fun s => ?_, fun s => ?_, fun s => ?_⟩
  · exact (hostWrite_cmd _ s).trans (issueByte_of_decode hdecode s)
  · exact ⟨_, exec_clr s, s.resetEngine_hasResetValues, rfl, rfl, rfl⟩
  · exact ⟨s.resetEngine, rfl, s.resetEngine_hasResetValues, rfl, rfl, rfl⟩

/-! ### The values of `STATUS` -/

/-- Legal contents of `STATUS` read as one of the six bytes of `10_state.md` R27. -/
theorem State.statusLegal.statusByte_mem {s : State} (h : s.statusLegal) :
    statusByte s ∈ ([0x00, 0x02, 0x81, 0x83, 0x84, 0x85] : List Byte) := by
  unfold State.statusLegal at h
  unfold statusByte
  cases hf : s.fault
  · rw [hf, if_neg Bool.false_ne_true] at h
    rcases h with hc | hc <;> rw [hc] <;> decide
  · rw [hf, if_pos rfl] at h
    rcases h with hc | hc | hc | hc <;> rw [hc] <;> decide

theorem State.Inv.reset_finish (c : ResultCode) : (State.reset.finish c).Inv :=
  ⟨State.reset_inv.canonical, State.reset_inv.inBuffer, State.statusLegal_finish rfl c⟩

/-- Bits 6:4 of `STATUS` (R27), whatever `FAULT` and `CODE` hold. -/
theorem statusByte_bits_6_4 (s : State) : (statusByte s).extractLsb' 4 3 = 0 := by
  unfold statusByte
  generalize s.fault = f, s.code = c
  revert f c
  decide

/-- Settles O48: a legal `STATUS` reads as one of the six bytes, and each is read after reset with its outcome. -/
theorem statusReadsOneOfSixBytes : Obligations.StatusReadsOneOfSixBytes := by
  unfold Obligations.StatusReadsOneOfSixBytes
  refine ⟨fun s hs => hs.status.statusByte_mem, fun b hb => ?_, statusByte_bits_6_4⟩
  simp only [List.mem_cons, List.not_mem_nil, or_false] at hb
  rcases hb with rfl | rfl | rfl | rfl | rfl | rfl
  · exact ⟨_, .reset_finish .ok, rfl⟩
  · exact ⟨_, .reset_finish .invalidPadding, rfl⟩
  · exact ⟨_, State.reset_inv.raiseFault .invalidLength, rfl⟩
  · exact ⟨_, State.reset_inv.raiseFault .illegalCommand, rfl⟩
  · exact ⟨_, State.reset_inv.raiseFault .invalidBlockSize, rfl⟩
  · exact ⟨_, State.reset_inv.raiseFault .capacity, rfl⟩

/-! ### The write matrix -/

/-- A command other than CLR leaves `KEY`, `IV` and `BS` alone, and `RESULT` unless it is PAD. -/
theorem CommandEffect.registers {i : Instr} {s t : State} (h : CommandEffect i s t) :
    t.key = s.key ∧ t.iv = s.iv ∧ t.bs = s.bs ∧ (i ≠ .pad → t.result = s.result) := by
  cases h with
  | ignored | faulted | rejected => exact ⟨rfl, rfl, rfl, fun _ => rfl⟩
  | completed _ _ hresult hw =>
    obtain ⟨hkey, hiv, hbs, -⟩ := hw.operands
    exact ⟨hkey, hiv, hbs, hresult⟩

/-- A command other than CLR leaves every byte of `BUF` outside its range alone. -/
theorem CommandEffect.readBuf {i : Instr} {s t : State} (h : CommandEffect i s t) {a : Nat}
    (ha : a < writeStart i s ∨ writeEnd i s t ≤ a) : t.readBuf a = s.readBuf a := by
  cases h with
  | ignored | faulted | rejected => rfl
  | completed _ _ _ hw => exact hw.unwritten a ha

/-- Settles O49: the registers and the range of `BUF` that each command may write. -/
theorem commandsObeyTheWriteMatrix : Obligations.CommandsObeyTheWriteMatrix := by
  unfold Obligations.CommandsObeyTheWriteMatrix
  intro i s t hi h
  have heffect := exec_effect hi h
  obtain ⟨hkey, hiv, hbs, hresult⟩ := heffect.registers
  refine ⟨hkey, hiv, hbs, hresult, ?_, ?_, ?_, ?_⟩
  · rintro (rfl | rfl) a <;> exact heffect.readBuf (.inr (Nat.zero_le a))
  · rintro rfl a ha
    exact heffect.readBuf ha
  · rintro (rfl | rfl) a ha <;> exact heffect.readBuf (.inr ha)
  · rintro (rfl | rfl) a ha <;> exact heffect.readBuf (.inr ha)

/-! ### Ranges that are no invariants -/

/-- A command that ends `OK` has `LEN` inside the buffer (`10_state.md` R35). -/
theorem CommandEffect.len_le_cap_of_isOk {i : Instr} {s t : State} (h : CommandEffect i s t) (ht : t.isOk) :
    t.len.toNat ≤ t.cap.val := by
  obtain ⟨hfault, hcode⟩ := ht
  cases h with
  | ignored hf => rw [hf] at hfault; cases hfault
  | faulted c => cases hfault
  | rejected => exact absurd (show 2#4 = 0#4 from hcode) (by decide)
  | completed _ hcap _ hw =>
    obtain ⟨-, -, -, hsame, -⟩ := hw.operands
    rw [← hsame] at hcap
    exact hcap

/-- The machine of capacity 32 right after reset, with one write of the host to come. -/
def smallSending (r : Reg) (v : Byte) : State :=
  { State.resetWith ⟨32, Nat.le_refl 32, by decide⟩ [] with pending := [writeTo r v] }

theorem smallSending_inv (r : Reg) (v : Byte) : (smallSending r v).Inv :=
  ⟨Memory.wf_nil [], by simp [smallSending, State.resetWith], .inl rfl⟩

/-- Settles O53: the write of 33 to `LEN_L` at capacity 32, and that of 0 to `BS`, break the two bounds. -/
theorem registerRangesThatHoldAndThatDoNot : Obligations.RegisterRangesThatHoldAndThatDoNot := by
  unfold Obligations.RegisterRangesThatHoldAndThatDoNot
  refine ⟨State.reset_inv.status, fun s t => ?_, fun i s t h ht => ?_, ?_, ?_⟩
  · exact step_keeps (P := State.statusLegal) (fun _ _ hs => hs) fun _ _ hs he => he.keeps_statusLegal hs
  · by_cases hi : i = .clr
    · rw [hi, exec_clr] at h
      cases h
      exact Nat.zero_le _
    · exact (exec_effect hi h).len_le_cap_of_isOk ht
  · exact ⟨smallSending .lenL 33, _, smallSending_inv _ _, by decide, rfl, by decide⟩
  · exact ⟨smallSending .bs 0, _, smallSending_inv _ _, by decide, rfl, by decide⟩

end Sys2Proof.Machine
end

section
/-! # The register map and the host's accesses

A register has one offset, `Reg.number`, and the map finds a register at an offset exactly when it is that register's
(`locate_eq_some`). Every row of `20_memory.md` R52 to R55 and the idempotence of R60 follow from this and from what
`readReg` and `writeReg` do at the register found. The last part, on R61, follows from `CommandEffect`. -/

namespace Sys2Proof.Machine

/-! ### The map -/

/-- The offset of a register as a natural number, so that no index of `BUF` wraps around the 17 address bits (R52). -/
def Reg.number : Reg → Nat
  | .cmd => 0x00000
  | .status => 0x00001
  | .bs => 0x00002
  | .result => 0x00003
  | .lenL => 0x00004
  | .lenH => 0x00005
  | .capL => 0x00006
  | .capH => 0x00007
  | .key j => 0x00010 + j.val
  | .iv j => 0x00020 + j.val
  | .buf a => 0x10000 + a

theorem Reg.offset_eq_ofNat (r : Reg) : Reg.offset r = BitVec.ofNat 17 (Reg.number r) := by
  cases r <;> rfl

theorem Reg.wf_buf {cap a : Nat} : Reg.wf cap (.buf a) = true ↔ a < cap := decide_eq_true_iff

theorem Reg.number_lt {cap : Nat} (hcap : cap ≤ 65535) {r : Reg} (hr : r.wf cap = true) : Reg.number r < 2 ^ 17 := by
  cases r with
  | buf a =>
    have ha := Reg.wf_buf.mp hr
    simp only [Reg.number]
    omega
  | key j | iv j => simp only [Reg.number]; omega
  | cmd | status | bs | result | lenL | lenH | capL | capH => simp [Reg.number]

theorem locateNat_number {cap : Nat} {r : Reg} (hr : r.wf cap = true) : locateNat cap (Reg.number r) = some r := by
  cases r with
  | cmd | status | bs | result | lenL | lenH | capL | capH => rfl
  | key j => simp (disch := omega) only [Reg.number, locateNat, if_neg, dif_pos, Nat.add_sub_cancel_left]
  | iv j => simp (disch := omega) only [Reg.number, locateNat, if_neg, dif_neg, dif_pos, Nat.add_sub_cancel_left]
  | buf a =>
    have ha := Reg.wf_buf.mp hr
    simp (disch := omega) only [Reg.number, locateNat, if_neg, dif_neg, if_pos, Nat.add_sub_cancel_left]

theorem number_of_locateNat {cap n : Nat} {r : Reg} (h : locateNat cap n = some r) :
    Reg.number r = n ∧ r.wf cap = true := by
  unfold locateNat at h
  iterate 8
    rcases ite_eq_iff.mp h with ⟨hn, hr⟩ | ⟨-, h⟩
    · cases hr
      exact ⟨hn.symm, rfl⟩
  split at h
  case isTrue hkey =>
    cases h
    exact ⟨Nat.add_sub_of_le hkey.1, rfl⟩
  split at h
  case isTrue hiv =>
    cases h
    exact ⟨Nat.add_sub_of_le hiv.1, rfl⟩
  split at h
  case isTrue hbuf =>
    cases h
    exact ⟨Nat.add_sub_of_le hbuf.1, Reg.wf_buf.mpr (by omega)⟩
  cases h

/-- The map of R52: what stands at an address is the register with that offset, where `BUF[a]` has `a < CAP`. -/
theorem locate_eq_some {cap : Nat} {addr : Addr} {r : Reg} :
    locate cap addr = some r ↔ Reg.number r = addr.toNat ∧ r.wf cap = true := by
  refine ⟨number_of_locateNat, fun ⟨hn, hr⟩ => ?_⟩
  rw [locate, ← hn]
  exact locateNat_number hr

/-- The reserved offsets of R54, the end of the register space above `BUF` included. -/
theorem locate_eq_none {cap : Nat} {addr : Addr}
    (h : (0x00008 ≤ addr.toNat ∧ addr.toNat ≤ 0x0000F) ∨ (0x00030 ≤ addr.toNat ∧ addr.toNat ≤ 0x0FFFF) ∨
      0x10000 + cap ≤ addr.toNat) : locate cap addr = none := by
  refine Option.eq_none_iff_forall_ne_some.mpr fun r hr => ?_
  obtain ⟨hn, hwf⟩ := locate_eq_some.mp hr
  cases r with
  | buf a =>
    have ha := Reg.wf_buf.mp hwf
    simp only [Reg.number] at hn
    omega
  | cmd | status | bs | result | lenL | lenH | capL | capH | key | iv => simp only [Reg.number] at hn; omega

theorem offset_of_locate {cap : Nat} {addr : Addr} {r : Reg} (h : locate cap addr = some r) : Reg.offset r = addr := by
  rw [Reg.offset_eq_ofNat, (locate_eq_some.mp h).1, BitVec.ofNat_toNat, BitVec.setWidth_eq]

theorem locate_offset {cap : Nat} (hcap : cap ≤ 65535) {r : Reg} (hr : r.wf cap = true) :
    locate cap (Reg.offset r) = some r := by
  refine locate_eq_some.mpr ⟨?_, hr⟩
  rw [Reg.offset_eq_ofNat, BitVec.toNat_ofNat, Nat.mod_eq_of_lt (Reg.number_lt hcap hr)]

/-- Settles O41: at capacities up to 65535 no offset wraps around, so the map and `Reg.offset` invert each other. -/
theorem registerMapIsOneToOne : Obligations.RegisterMapIsOneToOne := by
  unfold Obligations.RegisterMapIsOneToOne
  exact ⟨fun _ _ hcap hr => locate_offset hcap hr,
    fun _ _ _ h => ⟨offset_of_locate h, (locate_eq_some.mp h).2⟩⟩

/-! ### The two transactions at an address -/

section

variable {s : State} {addr : Addr} {r : Reg}

/-- A write to a register other than `CMD` stores its byte there (R53). -/
theorem hostWrite_of_locate (h : locate s.cap.val addr = some r) (hr : r ≠ .cmd) (v : Byte) :
    hostWrite addr v s = .next (writeReg s v r) := by
  unfold hostWrite
  rw [h]
  cases r with
  | cmd => exact absurd rfl hr
  | status | bs | result | lenL | lenH | capL | capH | key | iv | buf => rfl

/-- A write to a reserved offset does nothing (R54). -/
theorem hostWrite_of_reserved (h : locate s.cap.val addr = none) (v : Byte) : hostWrite addr v s = .next s := by
  simp only [hostWrite, h]

theorem hostRead_of_locate (h : locate s.cap.val addr = some r) : hostRead s addr = readReg s r := by
  simp only [hostRead, h]

/-- A reserved offset reads `0x00` (R54). -/
theorem hostRead_of_reserved (h : locate s.cap.val addr = none) : hostRead s addr = 0x00 := by
  simp only [hostRead, h]

theorem hostWrite_at (hr : r ≠ .cmd) (hwf : r.wf s.cap.val = true) (h : addr.toNat = Reg.number r) (v : Byte) :
    hostWrite addr v s = .next (writeReg s v r) :=
  hostWrite_of_locate (locate_eq_some.mpr ⟨h.symm, hwf⟩) hr v

theorem hostRead_at (hwf : r.wf s.cap.val = true) (h : addr.toNat = Reg.number r) : hostRead s addr = readReg s r :=
  hostRead_of_locate (locate_eq_some.mpr ⟨h.symm, hwf⟩)

end

/-! ### `LEN` in its two halves, and the `STATUS` byte -/

/-- The value of two bytes put together (`10_state.md` R25). -/
theorem toNat_append_byte (hi lo : Byte) : (hi ++ lo).toNat = 256 * hi.toNat + lo.toNat := by
  rw [BitVec.toNat_append, ← Nat.shiftLeft_add_eq_or_of_lt lo.isLt, Nat.shiftLeft_eq]
  omega

theorem toNat_lowByte (n : BitVec 16) : (n.extractLsb' 0 8).toNat = n.toNat % 256 := by
  simp [BitVec.extractLsb'_toNat]

theorem toNat_highByte (n : BitVec 16) : (n.extractLsb' 8 8).toNat = n.toNat / 256 := by
  rw [BitVec.extractLsb'_toNat, Nat.shiftRight_eq_div_pow]
  omega

/-- `FAULT` is bit 7 of `STATUS` and `CODE` its low bits (`10_state.md` R27). -/
theorem statusByte_toNat (s : State) : (statusByte s).toNat = 128 * s.fault.toNat + s.code.toNat := by
  unfold statusByte
  generalize s.fault = f, s.code = c
  revert f c
  decide

/-! ### The register map, row by row -/

/-- A write to offset 0 is the issue of its byte (R53). -/
theorem hostWrite_zero {s : State} {addr : Addr} (h : addr.toNat = 0x00000) (v : Byte) :
    hostWrite addr v s = issueByte v s := by
  rw [show addr = 0x00000 from BitVec.eq_of_toNat_eq h]
  exact hostWrite_cmd v s

theorem hostWrite_lenL {s : State} {addr : Addr} (h : addr.toNat = 0x00004) (v : Byte) :
    ∃ t, hostWrite addr v s = .next t ∧ t = { s with len := t.len } ∧
      t.len.toNat = 256 * (s.len.toNat / 256) + v.toNat := by
  refine ⟨_, hostWrite_at (r := .lenL) nofun rfl h v, rfl, ?_⟩
  rw [← toNat_highByte]
  exact toNat_append_byte _ v

theorem hostWrite_lenH {s : State} {addr : Addr} (h : addr.toNat = 0x00005) (v : Byte) :
    ∃ t, hostWrite addr v s = .next t ∧ t = { s with len := t.len } ∧
      t.len.toNat = 256 * v.toNat + s.len.toNat % 256 := by
  refine ⟨_, hostWrite_at (r := .lenH) nofun rfl h v, rfl, ?_⟩
  rw [← toNat_lowByte]
  exact toNat_append_byte v _

theorem hostWrite_buf {s : State} {addr : Addr} {a : Nat} (ha : a < s.cap.val) (h : addr.toNat = 0x10000 + a)
    (v : Byte) : ∃ t, hostWrite addr v s = .next t ∧ t = { s with buf := t.buf } ∧
      ∀ b, t.readBuf b = if b = a then v else s.readBuf b :=
  ⟨_, hostWrite_at (r := .buf a) nofun (Reg.wf_buf.mpr ha) h v, rfl, fun b => s.readBuf_writeBuf a b v⟩

/-- The read-only registers (R55) and the reserved offsets (R54) ignore a write. -/
theorem hostWrite_ignored {s : State} {addr : Addr}
    (h : addr.toNat = 0x00001 ∨ addr.toNat = 0x00003 ∨ (0x00006 ≤ addr.toNat ∧ addr.toNat ≤ 0x0000F) ∨
      (0x00030 ≤ addr.toNat ∧ addr.toNat ≤ 0x0FFFF) ∨ 0x10000 + s.cap.val ≤ addr.toNat) (v : Byte) :
    hostWrite addr v s = .next s := by
  by_cases hstatus : addr.toNat = 0x00001
  · exact hostWrite_at (r := .status) nofun rfl hstatus v
  by_cases hresult : addr.toNat = 0x00003
  · exact hostWrite_at (r := .result) nofun rfl hresult v
  by_cases hcapL : addr.toNat = 0x00006
  · exact hostWrite_at (r := .capL) nofun rfl hcapL v
  by_cases hcapH : addr.toNat = 0x00007
  · exact hostWrite_at (r := .capH) nofun rfl hcapH v
  exact hostWrite_of_reserved (locate_eq_none (by omega)) v

theorem hostRead_status {s : State} {addr : Addr} (h : addr.toNat = 0x00001) :
    (hostRead s addr).toNat = 128 * s.fault.toNat + s.code.toNat := by
  rw [hostRead_at (r := .status) rfl h]
  exact statusByte_toNat s

theorem hostRead_lenL {s : State} {addr : Addr} (h : addr.toNat = 0x00004) :
    (hostRead s addr).toNat = s.len.toNat % 256 := by
  rw [hostRead_at (r := .lenL) rfl h]
  exact toNat_lowByte s.len

theorem hostRead_lenH {s : State} {addr : Addr} (h : addr.toNat = 0x00005) :
    (hostRead s addr).toNat = s.len.toNat / 256 := by
  rw [hostRead_at (r := .lenH) rfl h]
  exact toNat_highByte s.len

theorem hostRead_capL {s : State} {addr : Addr} (h : addr.toNat = 0x00006) :
    (hostRead s addr).toNat = s.cap.val % 256 := by
  rw [hostRead_at (r := .capL) rfl h]
  simp [readReg]

theorem hostRead_capH {s : State} {addr : Addr} (h : addr.toNat = 0x00007) :
    (hostRead s addr).toNat = s.cap.val / 256 := by
  have := s.cap.upper
  rw [hostRead_at (r := .capH) rfl h, readReg, BitVec.toNat_ofNat]
  omega

/-- `CMD` and `KEY`, which are write only (R55), and the reserved offsets (R54) read `0x00`. -/
theorem hostRead_zero {s : State} {addr : Addr}
    (h : addr.toNat = 0x00000 ∨ (0x00008 ≤ addr.toNat ∧ addr.toNat ≤ 0x0001F) ∨
      (0x00030 ≤ addr.toNat ∧ addr.toNat ≤ 0x0FFFF) ∨ 0x10000 + s.cap.val ≤ addr.toNat) : hostRead s addr = 0x00 := by
  by_cases hcmd : addr.toNat = 0x00000
  · exact hostRead_at (r := .cmd) rfl hcmd
  by_cases hkey : 0x00010 ≤ addr.toNat ∧ addr.toNat ≤ 0x0001F
  · obtain ⟨j, hj⟩ : ∃ j : Fin 16, addr.toNat = 0x00010 + j.val :=
      ⟨⟨addr.toNat - 0x00010, by omega⟩, by simp only; omega⟩
    exact hostRead_at (r := .key j) rfl hj
  exact hostRead_of_reserved (locate_eq_none (by omega))

/-- Settles O39: each row is the write or the read of the register that the map has at the row's offset. -/
theorem hostTransactionsFollowTheMap : Obligations.HostTransactionsFollowTheMap := by
  unfold Obligations.HostTransactionsFollowTheMap
  constructor
  · intro s addr v
    exact ⟨fun h => hostWrite_zero h v,
      fun h => hostWrite_at (r := .bs) nofun rfl h v,
      fun h => hostWrite_lenL h v,
      fun h => hostWrite_lenH h v,
      fun j h => hostWrite_at (r := .key j) nofun rfl h v,
      fun j h => hostWrite_at (r := .iv j) nofun rfl h v,
      fun a ha h => hostWrite_buf ha h v,
      fun h => hostWrite_ignored h v⟩
  · intro s addr
    exact ⟨rfl,
      hostRead_status,
      fun h => hostRead_at (r := .bs) rfl h,
      fun h => hostRead_at (r := .result) rfl h,
      hostRead_lenL,
      hostRead_lenH,
      hostRead_capL,
      hostRead_capH,
      fun j h => hostRead_at (r := .iv j) rfl h,
      fun a ha h => hostRead_at (r := .buf a) (Reg.wf_buf.mpr ha) h,
      hostRead_zero⟩

/-! ### Reads and data writes done again -/

@[simp] theorem readReg_observe (s : State) (v : Byte) (r : Reg) : readReg (s.observe v) r = readReg s r := by
  cases r <;> rfl

@[simp] theorem hostRead_observe (s : State) (v : Byte) (addr : Addr) :
    hostRead (s.observe v) addr = hostRead s addr := by
  simp only [hostRead, State.observe_cap, readReg_observe]

@[simp] theorem writeReg_cap (s : State) (v : Byte) (r : Reg) : (writeReg s v r).cap = s.cap := by
  cases r <;> rfl

/-- Writing the same byte to a register twice is writing it once. -/
theorem writeReg_writeReg (s : State) (v : Byte) (r : Reg) : writeReg (writeReg s v r) v r = writeReg s v r := by
  cases r with
  | cmd | status | bs | result | capL | capH => rfl
  | lenL => simp only [writeReg]; rw [BitVec.extractLsb'_append_eq_left]
  | lenH => simp only [writeReg]; rw [BitVec.extractLsb'_append_eq_right]
  | key j => simp [writeReg]
  | iv j => simp [writeReg]
  | buf a => simp only [writeReg, State.writeBuf, Memory.write_write]

/-- A write to one register changes what is read at no other. -/
theorem readReg_writeReg_of_ne {q r : Reg} (h : q ≠ r) (s : State) (v : Byte) :
    readReg (writeReg s v r) q = readReg s q := by
  cases r with
  | cmd | status | result | capL | capH => rfl
  | key j => cases q <;> rfl
  | bs =>
    cases q with
    | bs => exact absurd rfl h
    | cmd | status | result | lenL | lenH | capL | capH | key | iv | buf => rfl
  | lenL =>
    cases q with
    | lenL => exact absurd rfl h
    | lenH => exact BitVec.extractLsb'_append_eq_left
    | cmd | status | bs | result | capL | capH | key | iv | buf => rfl
  | lenH =>
    cases q with
    | lenH => exact absurd rfl h
    | lenL => exact BitVec.extractLsb'_append_eq_right
    | cmd | status | bs | result | capL | capH | key | iv | buf => rfl
  | iv j =>
    cases q with
    | iv k =>
      have hjk : j.val ≠ k.val := fun e => h (congrArg Reg.iv (Fin.ext e.symm))
      exact Vector.getElem_set_ne j.isLt k.isLt hjk
    | cmd | status | bs | result | lenL | lenH | capL | capH | key | buf => rfl
  | buf a =>
    cases q with
    | buf b =>
      have hba : b ≠ a := fun e => h (congrArg Reg.buf e)
      exact (s.readBuf_writeBuf a b v).trans (if_neg hba)
    | cmd | status | bs | result | lenL | lenH | capL | capH | key | iv => rfl

/-- A write to the register at one address changes what is read at no other address. -/
theorem hostRead_writeReg_of_ne {s : State} {addr b : Addr} {r : Reg} (hr : locate s.cap.val addr = some r)
    (hb : b ≠ addr) (v : Byte) : hostRead (writeReg s v r) b = hostRead s b := by
  unfold hostRead
  rw [writeReg_cap]
  cases hq : locate s.cap.val b with
  | none => rfl
  | some q =>
    have hqr : q ≠ r := by
      rintro rfl
      exact hb ((offset_of_locate hq).symm.trans (offset_of_locate hr))
    exact readReg_writeReg_of_ne hqr s v

/-- Settles O40: a read adds to the host's record only, and a data write is a write to one register or none. -/
theorem readsAndDataWritesAreIdempotent : Obligations.ReadsAndDataWritesAreIdempotent := by
  unfold Obligations.ReadsAndDataWritesAreIdempotent
  refine ⟨fun s a b => ⟨s.observe (hostRead s a), rfl, rfl, hostRead_observe s _ b⟩, fun s addr v haddr => ?_⟩
  cases hr : locate s.cap.val addr with
  | none => exact ⟨s, hostWrite_of_reserved hr v, hostWrite_of_reserved hr v, fun _ _ => rfl⟩
  | some r =>
    have hcmd : r ≠ .cmd := by
      rintro rfl
      exact haddr (offset_of_locate hr).symm
    have hagain : locate (writeReg s v r).cap.val addr = some r := by rwa [writeReg_cap]
    refine ⟨_, hostWrite_of_locate hr hcmd v, ?_, fun b hb => hostRead_writeReg_of_ne hr hb v⟩
    rw [hostWrite_of_locate hagain hcmd, writeReg_writeReg]

/-! ### Commands and the end of `BUF` -/

/-- A command other than CLR changes nothing at or above `CAP` (`20_memory.md` R61). -/
theorem CommandEffect.readBuf_above {i : Instr} {s t : State} (h : CommandEffect i s t) {a : Nat}
    (ha : s.cap.val ≤ a) : t.readBuf a = s.readBuf a := by
  cases h with
  | ignored | faulted | rejected => rfl
  | completed haccepts hcap _ hw => exact hw.unwritten a (.inr ((writeEnd_le_cap haccepts hcap i).trans ha))

/-- A command other than CLR lists no index outside `BUF`; the canonical form has no part in this. -/
theorem CommandEffect.keeps_inBuffer {i : Instr} {s t : State} (hs : ∀ c ∈ s.buf, c.1 < s.cap.val)
    (h : CommandEffect i s t) : ∀ c ∈ t.buf, c.1 < t.cap.val := by
  cases h with
  | ignored | faulted | rejected => exact hs
  | @completed u haccepts hcap _ hw =>
    intro c hc
    obtain ⟨-, -, -, hsame, -⟩ := hw.operands
    change c.1 < u.cap.val
    rw [hsame]
    rcases hw.listed c hc with ⟨_, hlt⟩ | hold
    · exact hlt.trans_le (writeEnd_le_cap haccepts hcap i)
    · exact hs c hold

/-- Settles O50: CLR lists nothing, and any other command writes below `writeEnd`, which `CAP` bounds. -/
theorem commandsStayInsideTheBuffer : Obligations.CommandsStayInsideTheBuffer := by
  unfold Obligations.CommandsStayInsideTheBuffer
  intro i s t h hs
  by_cases hi : i = .clr
  · rw [hi, exec_clr] at h
    cases h
    exact ⟨fun hne => absurd hi hne, by simp⟩
  · have heffect := exec_effect hi h
    exact ⟨fun _ _ ha => heffect.readBuf_above ha, heffect.keeps_inBuffer hs⟩

end Sys2Proof.Machine
end

section
/-! # The command byte and its issue

A byte selects a row of the opcode map only when it is the encoding of the row's command (`eq_encode_of_selected`), so
decoding and encoding invert each other (`decode_eq_ok`), and any other byte is reserved (`decode_reserved`). What R90 says
of a `CMD` write follows from this and from `exec_eq_issued`: every command but CLR is its own rule behind the tests at
issue. -/

namespace Sys2Proof.Machine

/-! ### Decoding and encoding -/

/-- The laws of `Laws/PerInstr.lean` in one. -/
theorem decodeEncode_statement (i : Instr) : Sys2Proof.Laws.DecodeEncode.Statement i := by
  cases i with
  | pad => exact Sys2Proof.Laws.DecodeEncode.pad
  | strip => exact Sys2Proof.Laws.DecodeEncode.strip
  | validate => exact Sys2Proof.Laws.DecodeEncode.validate
  | ecbEnc => exact Sys2Proof.Laws.DecodeEncode.ecbEnc
  | ecbDec => exact Sys2Proof.Laws.DecodeEncode.ecbDec
  | cbcEnc => exact Sys2Proof.Laws.DecodeEncode.cbcEnc
  | cbcDec => exact Sys2Proof.Laws.DecodeEncode.cbcDec
  | clr => exact Sys2Proof.Laws.DecodeEncode.clr

theorem decode_encode (i : Instr) : decode (encode i) = .ok i := by
  obtain ⟨-, hdecode, -⟩ := decodeEncode_statement i
  exact hdecode

/-- The opcode map (R82) agrees with the bit fields of R81, and every mask is `0xFF`. -/
theorem opcodeTable_row : ∀ r ∈ opcodeTable, r.mask = 0xFF ∧ r.pattern = encode r.instr := by decide

/-- A byte that selects a row of the opcode map is the encoding of the row's command. -/
theorem eq_encode_of_selected {c : Byte} {r : OpcodeRow} (h : opcodeTable.find? (·.selects c) = some r) :
    c = encode r.instr := by
  obtain ⟨hmask, hpattern⟩ := opcodeTable_row r (List.mem_of_find?_eq_some h)
  have hselects : c &&& r.mask = r.pattern := of_decide_eq_true (List.find?_some (p := fun r : OpcodeRow => r.selects c) h)
  have hall : c &&& 0xFF = c := BitVec.and_allOnes
  rwa [hmask, hpattern, hall] at hselects

theorem eq_encode_of_decode {c : Byte} {i : Instr} (h : decode c = .ok i) : c = encode i := by
  unfold decode at h
  split at h
  · rename_i r hfound
    cases h
    exact eq_encode_of_selected hfound
  · cases h

/-- Decoding and encoding invert each other. -/
theorem decode_eq_ok {c : Byte} {i : Instr} : decode c = .ok i ↔ c = encode i :=
  ⟨eq_encode_of_decode, fun h => h ▸ decode_encode i⟩

/-- A byte that no command encodes to is reserved (R84). -/
theorem decode_reserved {c : Byte} (h : ∀ i : Instr, c ≠ encode i) : decode c = .error (.reservedCode c) := by
  unfold decode
  split
  · rename_i r hfound
    exact absurd (eq_encode_of_selected hfound) (h r.instr)
  · rfl

/-- Settles O3: a byte that selects a row of the opcode map is the encoding of the row's command. -/
theorem decodeAndEncodeAgree : Obligations.DecodeAndEncodeAgree := by
  unfold Obligations.DecodeAndEncodeAgree
  exact ⟨fun i _ => decode_encode i, fun _ _ => eq_encode_of_decode, fun _ => decode_reserved⟩

/-- Every encoding is one of the eight bytes of R82. -/
theorem encode_mem_commandBytes (i : Instr) :
    encode i ∈ ([0x01, 0x02, 0x03, 0x10, 0x11, 0x12, 0x13, 0xFF] : List Byte) := by
  cases i <;> decide

/-- Settles O2: each of the eight bytes is the encoding of its command, and every encoding is one of the eight. -/
theorem commandBytesDecodeAsTabulated : Obligations.CommandBytesDecodeAsTabulated := by
  unfold Obligations.CommandBytesDecodeAsTabulated
  refine ⟨decode_eq_ok.mpr rfl, decode_eq_ok.mpr rfl, decode_eq_ok.mpr rfl, decode_eq_ok.mpr rfl, decode_eq_ok.mpr rfl,
    decode_eq_ok.mpr rfl, decode_eq_ok.mpr rfl, decode_eq_ok.mpr rfl, fun c hc => decode_reserved ?_⟩
  rintro i rfl
  exact hc (encode_mem_commandBytes i)

/-! ### A step and its event -/

theorem step_of_pending {s : State} {e : HostEvent} {rest : List HostEvent} (h : s.pending = e :: rest) :
    step s = hostEvent e (s.sending rest) := by
  simp only [step, nextEvent, h]
  rfl

theorem step_of_idle {s : State} (h : s.pending = []) : step s = .next s := by
  simp only [step, nextEvent, h]

/-- Settles O4: the step is the event's effect, and the effect of a `CMD` write is the issue of its byte. -/
theorem stepRunsTheDecodedCommand : Obligations.StepRunsTheDecodedCommand := by
  unfold Obligations.StepRunsTheDecodedCommand
  refine ⟨fun _ _ _ => step_of_pending, fun s c rest i hpending hdecode _ => ?_, fun _ => step_of_idle⟩
  calc step s = hostWrite 0x00000 c (s.sending rest) := step_of_pending hpending
    _ = issueByte c (s.sending rest) := hostWrite_cmd c _
    _ = exec i (s.sending rest) := issueByte_of_decode hdecode _

/-! ### The tests at issue -/

/-- What a command does once the tests at issue have let it through (`30_encoding.md` R90); `exec_eq_issued` and `exec_clr`
tie it to `exec`. -/
def commandRule : Instr → State → State
  | .pad => padCommand
  | .strip => stripCommand
  | .validate => validateCommand
  | .ecbEnc => ecbEncCommand Config.E
  | .ecbDec => ecbDecCommand Config.D
  | .cbcEnc => cbcEncCommand Config.E
  | .cbcDec => cbcDecCommand Config.D
  | .clr => State.resetEngine

theorem exec_eq_issued {i : Instr} (hi : i ≠ .clr) (s : State) : exec i s = .next (issued (commandRule i) s) := by
  cases i with
  | clr => exact absurd rfl hi
  | pad | strip | validate | ecbEnc | ecbDec | cbcEnc | cbcDec => rfl

theorem issued_of_fault {s : State} (h : s.fault = true) (command : State → State) : issued command s = s := by
  rw [issued, if_pos h]

theorem issued_of_cap_lt {s : State} (hf : s.fault = false) (hcap : s.cap.val < s.len.toNat)
    (command : State → State) : issued command s = s.raiseFault .capacity := by
  rw [issued, hf, if_neg Bool.false_ne_true, if_pos hcap]

theorem hostWrite_encode (i : Instr) (s : State) : hostWrite 0x00000 (encode i) s = exec i s :=
  (hostWrite_cmd _ s).trans (issueByte_of_decode (decode_encode i) s)

/-- A `CMD` write of a command byte other than CLR's is that command's rule behind the tests at issue. -/
theorem hostWrite_encode_eq_issued {i : Instr} (hi : i ≠ .clr) (s : State) :
    hostWrite 0x00000 (encode i) s = .next (issued (commandRule i) s) :=
  (hostWrite_encode i s).trans (exec_eq_issued hi s)

theorem hostWrite_of_accepts {i : Instr} (hi : i ≠ .clr) {s : State} (h : s.accepts) :
    hostWrite 0x00000 (encode i) s = .next (commandRule i s) := by
  rw [hostWrite_encode_eq_issued hi, issued_of_accepts h]

theorem hostWrite_reserved {c : Byte} (h : ∀ i : Instr, c ≠ encode i) (s : State) :
    hostWrite 0x00000 c s = .next (illegalCommand s) := by
  rw [hostWrite_cmd, issueByte, decode_reserved h]

theorem illegalCommand_of_fault {s : State} (h : s.fault = true) : illegalCommand s = s := if_pos h

theorem illegalCommand_of_running {s : State} (h : s.fault = false) :
    illegalCommand s = s.raiseFault .illegalCommand := by
  rw [illegalCommand, h, if_neg Bool.false_ne_true]

/-- The seven codes that R90 lists are the encodings of the commands other than CLR. -/
theorem mem_ordinaryCodes {c : Byte} : c ∈ ordinaryCodes ↔ ∃ i : Instr, i ≠ .clr ∧ c = encode i := by
  constructor
  · intro h
    simp only [ordinaryCodes, List.mem_cons, List.not_mem_nil, or_false] at h
    rcases h with rfl | rfl | rfl | rfl | rfl | rfl | rfl
    exacts [⟨.pad, nofun, rfl⟩, ⟨.strip, nofun, rfl⟩, ⟨.validate, nofun, rfl⟩, ⟨.ecbEnc, nofun, rfl⟩,
      ⟨.ecbDec, nofun, rfl⟩, ⟨.cbcEnc, nofun, rfl⟩, ⟨.cbcDec, nofun, rfl⟩]
  · rintro ⟨i, hi, rfl⟩
    cases i with
    | clr => exact absurd rfl hi
    | pad | strip | validate | ecbEnc | ecbDec | cbcEnc | cbcDec => decide

/-- A byte that is neither CLR's nor one of the seven is reserved. -/
theorem ne_encode_of_not_mem_ordinaryCodes {c : Byte} (hclr : c ≠ 0xFF) (hc : c ∉ ordinaryCodes) (i : Instr) :
    c ≠ encode i := by
  rintro rfl
  exact hc (mem_ordinaryCodes.mpr ⟨i, fun hi => hclr (congrArg encode hi), rfl⟩)

/-- A latched fault makes every `CMD` write but CLR's do nothing (`60_exceptions.md` R170). -/
theorem hostWrite_cmd_of_fault {s : State} (hf : s.fault = true) {c : Byte} (hc : c ≠ 0xFF) :
    hostWrite 0x00000 c s = .next s := by
  by_cases hmem : c ∈ ordinaryCodes
  · obtain ⟨i, hi, rfl⟩ := mem_ordinaryCodes.mp hmem
    rw [hostWrite_encode_eq_issued hi, issued_of_fault hf]
  · rw [hostWrite_reserved (ne_encode_of_not_mem_ordinaryCodes hc hmem), illegalCommand_of_fault hf]

/-- Settles O5: a reserved byte meets `illegalCommand`, a command byte its rule behind `issued`, and each of the two makes
its tests in the order of R90. -/
theorem issueTestsInOrder : Obligations.IssueTestsInOrder := by
  unfold Obligations.IssueTestsInOrder
  intro s c
  refine ⟨?_, fun hc hf => hostWrite_cmd_of_fault hf hc, fun hc hf hmem => ?_, fun hf hmem hcap => ?_, fun h => ?_⟩
  · rintro rfl
    exact (hostWrite_encode .clr s).trans (exec_clr s)
  · rw [hostWrite_reserved (ne_encode_of_not_mem_ordinaryCodes hc hmem), illegalCommand_of_running hf]
  · obtain ⟨i, hi, rfl⟩ := mem_ordinaryCodes.mp hmem
    rw [hostWrite_encode_eq_issued hi, issued_of_cap_lt hf hcap]
  · refine ⟨?_, ?_, ?_, ?_, ?_, ?_, ?_⟩ <;> rintro rfl
    exacts [hostWrite_of_accepts (i := .pad) nofun h, hostWrite_of_accepts (i := .strip) nofun h,
      hostWrite_of_accepts (i := .validate) nofun h, hostWrite_of_accepts (i := .ecbEnc) nofun h,
      hostWrite_of_accepts (i := .ecbDec) nofun h, hostWrite_of_accepts (i := .cbcEnc) nofun h,
      hostWrite_of_accepts (i := .cbcDec) nofun h]

/-- `60_exceptions.md` R160: the `STATUS` byte of `IllegalCommand`. -/
theorem statusByte_illegalCommand (s : State) : statusByte (s.raiseFault .illegalCommand) = 0x83 := by
  refine BitVec.eq_of_toNat_eq ?_
  rw [statusByte_toNat]
  rfl

/-- Settles O7: a reserved byte meets `illegalCommand`, which raises the fault unless one is latched. -/
theorem reservedCodesRaiseIllegalCommand : Obligations.ReservedCodesRaiseIllegalCommand := by
  unfold Obligations.ReservedCodesRaiseIllegalCommand
  intro s c hc
  rw [hostWrite_reserved hc]
  refine ⟨fun hf => ?_, fun hf => ?_⟩
  · rw [illegalCommand_of_running hf]
    exact ⟨_, rfl, statusByte_illegalCommand s, rfl⟩
  · rw [illegalCommand_of_fault hf]

end Sys2Proof.Machine
end

section
/-! # The operands of the codec commands

PAD, STRIP and VALIDATE read `BS`, `LEN`, `CAP` and the message (`30_encoding.md` R83). Two states that agree on these
(`CodecAgree`) pass through each of the codec's procedures with outcomes that agree (`CodecOutcomeAgree`): one lemma per
procedure, from `Strippable(bs)` and `Pad(bs)` up to the command. -/

namespace Sys2Proof.Machine

/-- The two states have no fault latched and the same operands of the codec commands. -/
structure CodecAgree (s t : State) : Prop where
  running : s.fault = false ∧ t.fault = false
  bs : s.bs = t.bs
  len : s.len = t.len
  cap : s.cap = t.cap
  message : ∀ a < s.len.toNat, s.readBuf a = t.readBuf a

/-- What the host can tell of the two outcomes of command `i` issued with a message of `n` bytes is the same. -/
structure CodecOutcomeAgree (i : Instr) (n : Nat) (s t : State) : Prop where
  fault : s.fault = t.fault
  code : s.code = t.code
  len : s.len = t.len
  result : i = .pad → s.isOk → s.result = t.result
  message : ∀ a, a < s.len.toNat ∨ a < n → s.readBuf a = t.readBuf a

namespace CodecAgree

variable {s t : State}

/-- A fault leaves the message as it was, and no result. -/
theorem raiseFault (h : CodecAgree s t) (i : Instr) (c : FaultCode) :
    CodecOutcomeAgree i s.len.toNat (s.raiseFault c) (t.raiseFault c) where
  fault := rfl
  code := rfl
  len := h.len
  result _ hok := absurd hok.1 nofun
  message a ha := h.message a (ha.elim id id)

/-- A result other than PAD's with `LEN` as it was. -/
theorem finish (h : CodecAgree s t) {i : Instr} (hi : i ≠ .pad) (c : ResultCode) :
    CodecOutcomeAgree i s.len.toNat (s.finish c) (t.finish c) where
  fault := h.running.1.trans h.running.2.symm
  code := rfl
  len := h.len
  result hpad := absurd hpad hi
  message a ha := h.message a (ha.elim id id)

/-- A result other than PAD's with `LEN` lowered. -/
theorem setLen_finish (h : CodecAgree s t) {i : Instr} (hi : i ≠ .pad) {n : Nat} (hn : n ≤ s.len.toNat)
    (c : ResultCode) : CodecOutcomeAgree i s.len.toNat ((s.setLen n).finish c) ((t.setLen n).finish c) where
  fault := h.running.1.trans h.running.2.symm
  code := rfl
  len := rfl
  result hpad := absurd hpad hi
  message a ha := by
    have hle : (BitVec.ofNat 16 n).toNat ≤ n := Nat.mod_le n _
    simp only [State.finish_len, State.setLen_len] at ha
    exact h.message a (by omega)

/-- `Strippable(bs)` reads the message only: its last byte, and of the bytes before it those inside the message. -/
theorem strippable_eq (h : CodecAgree s t) (bs : Nat) : strippable bs s = strippable bs t := by
  unfold strippable
  rw [← h.len]
  by_cases hn : s.len.toNat = 0
  · simp only [hn, if_true]
  · have hbyte : ∀ j, s.readBuf (s.len.toNat - 1 - j) = t.readBuf (s.len.toNat - 1 - j) :=
      fun j => h.message _ (by omega)
    have hlast : s.readBuf (s.len.toNat - 1) = t.readBuf (s.len.toNat - 1) := hbyte 0
    simp only [hbyte, hlast]

/-- STRIP's rule (R108). -/
theorem stripRule_agree (h : CodecAgree s t) (bs : Nat) :
    CodecOutcomeAgree .strip s.len.toNat (stripRule bs s) (stripRule bs t) := by
  simp only [stripRule, stripPadding, ← h.strippable_eq bs, ← h.len]
  cases strippable bs s with
  | none => exact h.finish (i := .strip) nofun .ok
  | some p => exact h.setLen_finish (i := .strip) nofun (Nat.sub_le _ p) .ok

/-- VALIDATE's rule (R112). -/
theorem validateRule_agree (h : CodecAgree s t) (bs : Nat) :
    CodecOutcomeAgree .validate s.len.toNat (validateRule bs s) (validateRule bs t) := by
  simp only [validateRule, ← h.strippable_eq bs, ← h.len]
  cases strippable bs s with
  | none => exact h.finish (i := .validate) nofun .invalidPadding
  | some p => exact h.setLen_finish (i := .validate) nofun (Nat.sub_le _ p) .ok

/-- The padded message: the message and then the pad bytes, whose number and value `LEN` gives. -/
theorem paddedByte_eq (h : CodecAgree s t) (bs : Nat) {a : Nat}
    (ha : a < s.len.toNat + padLength bs s.len.toNat) : s.paddedByte bs a = t.paddedByte bs a := by
  unfold State.paddedByte
  rw [← h.len]
  split
  · rfl
  · exact h.message a (by omega)

/-- PAD's rule where the padded message fits (R103). -/
theorem padded_agree (h : CodecAgree s t) (bs : Nat) :
    CodecOutcomeAgree .pad s.len.toNat (((s.padded bs).setResult (padLength bs s.len.toNat)).finish .ok)
      (((t.padded bs).setResult (padLength bs t.len.toNat)).finish .ok) where
  fault := h.running.1.trans h.running.2.symm
  code := rfl
  len := by simp only [State.finish_len, State.setResult_len, State.padded, State.setLen_len, h.len]
  result _ _ := by simp only [State.finish_result, State.setResult_result, h.len]
  message a ha := by
    have hle := Nat.mod_le (s.len.toNat + padLength bs s.len.toNat) (2 ^ 16)
    simp only [State.finish_len, State.setResult_len, State.padded, State.setLen_len, BitVec.toNat_ofNat] at ha
    simp only [State.finish_readBuf, State.setResult_readBuf, State.padded, readBuf_padded]
    exact h.paddedByte_eq bs (by omega)

/-- PAD's rule (R103): the test of the room reads `LEN` and `CAP`. -/
theorem padRule_agree (h : CodecAgree s t) (bs : Nat) :
    CodecOutcomeAgree .pad s.len.toNat (padRule bs s) (padRule bs t) := by
  unfold padRule
  rcases padMessage_cases bs s with ⟨hroom, hs⟩ | ⟨hfit, hs⟩
  · rcases padMessage_cases bs t with ⟨_, ht⟩ | ⟨hfit, _⟩
    · rw [hs, ht]
      exact h.raiseFault .pad .capacity
    · rw [← h.cap, ← h.len] at hfit
      omega
  · rcases padMessage_cases bs t with ⟨hroom, _⟩ | ⟨_, ht⟩
    · rw [← h.cap, ← h.len] at hroom
      omega
    · rw [hs, ht]
      exact h.padded_agree bs

/-- The test of `BS` that the codec commands make first (`60_exceptions.md` R165). -/
theorem withBlockSize_agree (h : CodecAgree s t) {i : Instr} {rule : Nat → State → State}
    (hrule : ∀ bs, CodecOutcomeAgree i s.len.toNat (rule bs s) (rule bs t)) :
    CodecOutcomeAgree i s.len.toNat (withBlockSize rule s) (withBlockSize rule t) := by
  unfold withBlockSize
  rw [← h.bs]
  split
  · exact h.raiseFault i .invalidBlockSize
  · exact hrule _

/-- The tests at issue (`30_encoding.md` R90). -/
theorem issued_agree (h : CodecAgree s t) {i : Instr} {command : State → State}
    (hcommand : CodecOutcomeAgree i s.len.toNat (command s) (command t)) :
    CodecOutcomeAgree i s.len.toNat (issued command s) (issued command t) := by
  simp only [issued, h.running.1, h.running.2, ← h.cap, ← h.len, Bool.false_eq_true, if_false]
  split
  · exact h.raiseFault i .capacity
  · exact hcommand

end CodecAgree

/-- Settles O36: each of the codec's procedures gives the two states outcomes that agree. -/
theorem codecReadsOnlyItsOperands : Obligations.CodecReadsOnlyItsOperands := by
  unfold Obligations.CodecReadsOnlyItsOperands
  intro i s t hi hs ht hbs hlen hcap hmessage
  have h : CodecAgree s t := ⟨⟨hs, ht⟩, hbs, hlen, hcap, hmessage⟩
  have hrule : CodecOutcomeAgree i s.len.toNat (issued (commandRule i) s) (issued (commandRule i) t) := by
    rcases hi with rfl | rfl | rfl
    · exact h.issued_agree (h.withBlockSize_agree h.padRule_agree)
    · exact h.issued_agree (h.withBlockSize_agree h.stripRule_agree)
    · exact h.issued_agree (h.withBlockSize_agree h.validateRule_agree)
  have hclr : i ≠ .clr := by
    rcases hi with rfl | rfl | rfl <;> nofun
  exact ⟨_, _, exec_eq_issued hclr s, exec_eq_issued hclr t, hrule.fault, hrule.code, hrule.len, hrule.result,
    hrule.message⟩

end Sys2Proof.Machine
end

section
/-! # Runs of the host's statements

A run of the host takes its writes to registers other than `CMD` one by one (`runEvents_writeTo`, `runEvents_writeEach`)
and so its reads (`runEvents_reads`). Each statement of `30_encoding.md` R89 is a list of such transactions, and what it does
follows from what its writes make of the state. The lemmas leave room for a `rest` of the run, so that those of two lists of
transactions join up. -/

namespace Sys2Proof.Machine

/-! ### Runs of writes and of reads -/

section

variable {s : State} {r : Reg}

/-- The host's list is no part of what a data write does. -/
theorem writeReg_sending (s : State) (rest : List HostEvent) (v : Byte) (r : Reg) :
    writeReg (s.sending rest) v r = (writeReg s v r).sending rest := by
  cases r <;> rfl

/-- The host's list is no part of what a register reads as. -/
theorem readReg_sending (s : State) (rest : List HostEvent) (r : Reg) : readReg (s.sending rest) r = readReg s r := by
  cases r <;> rfl

/-- A run begins with its own events, whatever was still to send. -/
theorem runEvents_sending (events rest : List HostEvent) (s : State) :
    runEvents events (s.sending rest) = runEvents events s := rfl

theorem locate_offset_cap (hr : r.wf s.cap.val = true) : locate s.cap.val (Reg.offset r) = some r :=
  locate_offset s.cap.upper hr

/-- `WR reg, v` at the head of a run. -/
theorem runEvents_writeTo (hcmd : r ≠ .cmd) (hr : r.wf s.cap.val = true) (v : Byte) (rest : List HostEvent) :
    runEvents (writeTo r v :: rest) s = runEvents rest (writeReg s v r) := by
  have hevent : hostEvent (writeTo r v) (s.sending rest) = .next ((writeReg s v r).sending rest) := by
    rw [← writeReg_sending]
    exact hostWrite_of_locate (s := s.sending rest) (locate_offset_cap (s := s) hr) hcmd v
  rw [runEvents_cons hevent rfl, runEvents_sending]

/-- `RD reg` at the head of a run. -/
theorem runEvents_readFrom (hr : r.wf s.cap.val = true) (rest : List HostEvent) :
    runEvents (readFrom r :: rest) s = runEvents rest (s.observe (readReg s r)) := by
  have hevent : hostEvent (readFrom r) (s.sending rest) = .next ((s.observe (readReg s r)).sending rest) := by
    rw [← readReg_sending s rest r, ← hostRead_of_locate (s := s.sending rest) (locate_offset_cap (s := s) hr)]
    rfl
  rw [runEvents_cons hevent rfl, runEvents_sending]

end

/-- The bytes that several reads returned are what the host has observed, in their order. -/
def State.observeAll (s : State) (vs : List Byte) : State := { s with observed := s.observed ++ vs }

theorem State.observeAll_nil (s : State) : s.observeAll [] = s := by
  simp [State.observeAll]

theorem State.observeAll_cons (s : State) (v : Byte) (vs : List Byte) :
    s.observeAll (v :: vs) = (s.observe v).observeAll vs := by
  simp [State.observeAll, State.observe]

theorem State.observeAll_append (s : State) (vs ws : List Byte) :
    s.observeAll (vs ++ ws) = (s.observeAll vs).observeAll ws := by
  simp [State.observeAll]

/-- `RD`s of registers one after another. -/
theorem runEvents_reads (regs : List Reg) {s : State} (hregs : ∀ r ∈ regs, r.wf s.cap.val = true)
    (rest : List HostEvent) :
    runEvents (regs.map readFrom ++ rest) s = runEvents rest (s.observeAll (regs.map (readReg s))) := by
  induction regs generalizing s with
  | nil => rw [List.map_nil, List.map_nil, List.nil_append, State.observeAll_nil]
  | cons r regs ih =>
    obtain ⟨hr, hregs⟩ := List.forall_mem_cons.mp hregs
    have hsame : readReg (s.observe (readReg s r)) = readReg s := funext (readReg_observe s _)
    rw [List.map_cons, List.cons_append, runEvents_readFrom hr, ih (s := s.observe (readReg s r)) hregs, hsame,
      List.map_cons, State.observeAll_cons]

/-- The state once the bytes are stored at `place 0`, `place 1`, … in turn. -/
def storeEach : State → (Nat → Reg) → List Byte → State
  | s, _, [] => s
  | s, place, v :: vs => storeEach (writeReg s v (place 0)) (fun j => place (j + 1)) vs

/-- `WR`s of a byte list to consecutive places. -/
theorem runEvents_writeEach (bytes : List Byte) {place : Nat → Reg} {s : State}
    (hplace : ∀ j < bytes.length, place j ≠ .cmd ∧ (place j).wf s.cap.val = true) (rest : List HostEvent) :
    runEvents (writeEach place bytes ++ rest) s = runEvents rest (storeEach s place bytes) := by
  induction bytes generalizing place s with
  | nil => rfl
  | cons v vs ih =>
    obtain ⟨hcmd, hwf⟩ := hplace 0 (Nat.zero_lt_succ _)
    have hrest : ∀ j < vs.length, place (j + 1) ≠ .cmd ∧ (place (j + 1)).wf (writeReg s v (place 0)).cap.val = true := by
      intro j hj
      rw [writeReg_cap]
      exact hplace (j + 1) (Nat.succ_lt_succ hj)
    rw [writeEach, List.mapIdx_cons, List.cons_append, runEvents_writeTo hcmd hwf]
    exact ih hrest

/-! ### `LDBUF`, `RDBUF` and the bytes of `BUF` -/

theorem storeEach_buf (s : State) (a : Nat) (vs : List Byte) :
    storeEach s (fun j => .buf (a + j)) vs = s.writeBytes a vs := by
  induction vs generalizing s a with
  | nil => rfl
  | cons v vs ih =>
    have hplace : (fun j => Reg.buf (a + (j + 1))) = fun j => Reg.buf (a + 1 + j) :=
      funext fun j => congrArg Reg.buf (by omega)
    rw [storeEach, hplace, ih]
    rfl

theorem runEvents_ldBuf {s : State} {a : Nat} {bytes : List Byte} (h : a + bytes.length ≤ s.cap.val)
    (rest : List HostEvent) : runEvents (expandLdBuf a bytes ++ rest) s = runEvents rest (s.writeBytes a bytes) := by
  rw [expandLdBuf, runEvents_writeEach, storeEach_buf]
  exact fun j hj => ⟨nofun, Reg.wf_buf.mpr (by omega)⟩

theorem runEvents_rdBuf {s : State} {a m : Nat} (h : a + m ≤ s.cap.val) (rest : List HostEvent) :
    runEvents (expandRdBuf a m ++ rest) s = runEvents rest (s.observeAll (s.readBytes a m)) := by
  have hregs : ∀ r ∈ (List.range m).map fun j => Reg.buf (a + j), r.wf s.cap.val = true := by
    intro r hr
    obtain ⟨j, hj, rfl⟩ := List.mem_map.mp hr
    exact Reg.wf_buf.mpr (by have := List.mem_range.mp hj; omega)
  have hrun := runEvents_reads _ hregs rest
  rw [List.map_map, List.map_map] at hrun
  exact hrun

/-- A byte sequence just written is what is read back. -/
theorem State.readBytes_writeBytes (s : State) (a : Nat) (vs : List Byte) :
    (s.writeBytes a vs).readBytes a vs.length = vs := by
  refine List.ext_getElem (by simp [State.readBytes]) fun j _ hj => ?_
  have hin : a ≤ a + j ∧ a + j < a + vs.length := by omega
  simp only [State.readBytes, List.getElem_map, List.getElem_range, State.readBuf_writeBytes, if_pos hin,
    Nat.add_sub_cancel_left, List.getD_eq_getElem _ _ hj]

/-- Settles O47: `RDBUF` is one read for each byte. -/
theorem rdBufObservesTheBuffer : Obligations.RdBufObservesTheBuffer := by
  unfold Obligations.RdBufObservesTheBuffer
  intro s a m len hwf
  exact runEvents_rdBuf (of_decide_eq_true hwf) []

/-! ### `SETLEN` -/

/-- The two bytes that `SETLEN n` writes spell `n`. -/
theorem append_bytes_ofNat {n : Nat} (h : n ≤ 65535) :
    BitVec.ofNat 8 (n / 256) ++ BitVec.ofNat 8 (n % 256) = BitVec.ofNat 16 n := by
  refine BitVec.eq_of_toNat_eq ?_
  rw [toNat_append_byte, BitVec.toNat_ofNat, BitVec.toNat_ofNat, BitVec.toNat_ofNat]
  omega

theorem writeReg_lenL_lenH (s : State) {n : Nat} (h : n ≤ 65535) :
    writeReg (writeReg s (BitVec.ofNat 8 (n % 256)) .lenL) (BitVec.ofNat 8 (n / 256)) .lenH = s.setLen n := by
  simp only [writeReg, State.setLen, ← append_bytes_ofNat h]
  rw [BitVec.extractLsb'_append_eq_right]

theorem writeReg_lenH_lenL (s : State) {n : Nat} (h : n ≤ 65535) :
    writeReg (writeReg s (BitVec.ofNat 8 (n / 256)) .lenH) (BitVec.ofNat 8 (n % 256)) .lenL = s.setLen n := by
  simp only [writeReg, State.setLen, ← append_bytes_ofNat h]
  rw [BitVec.extractLsb'_append_eq_left]

theorem runEvents_setLen {n : Nat} (h : n ≤ 65535) (s : State) (rest : List HostEvent) :
    runEvents (expandSetLen n ++ rest) s = runEvents rest (s.setLen n) := by
  rw [← writeReg_lenL_lenH s h]
  exact (runEvents_writeTo (r := .lenL) nofun rfl _ _).trans (runEvents_writeTo (r := .lenH) nofun rfl _ _)

theorem runEvents_setLen_reverse {n : Nat} (h : n ≤ 65535) (s : State) (rest : List HostEvent) :
    runEvents ((expandSetLen n).reverse ++ rest) s = runEvents rest (s.setLen n) := by
  rw [← writeReg_lenH_lenL s h]
  exact (runEvents_writeTo (r := .lenH) nofun rfl _ _).trans (runEvents_writeTo (r := .lenL) nofun rfl _ _)

/-- Settles O44: each write sets its own half of `LEN` and leaves the other. -/
theorem setLenWritesLenInEitherOrder : Obligations.SetLenWritesLenInEitherOrder := by
  unfold Obligations.SetLenWritesLenInEitherOrder
  intro s n len hwf
  have hn : n ≤ 65535 := of_decide_eq_true hwf
  refine ⟨(s.setLen n).sending [], runEvents_setLen hn s [], runEvents_setLen_reverse hn s [], ?_, rfl⟩
  exact Nat.mod_eq_of_lt (by omega)

/-- Settles O45: `LOAD` is `LDBUF` from index 0 and then `SETLEN`. -/
theorem loadMakesTheMessage : Obligations.LoadMakesTheMessage := by
  unfold Obligations.LoadMakesTheMessage
  intro s bytes len hwf
  have hcap : bytes.length ≤ s.cap.val := of_decide_eq_true hwf
  have hrun : runEvents (Stmt.expand len (.load bytes)) s =
      .next (((s.writeBytes 0 bytes).setLen bytes.length).sending []) := by
    simp only [Stmt.expand, Stmt.transactions, Stmt.followUp, List.append_assoc]
    rw [runEvents_ldBuf (by omega), runEvents_setLen (hcap.trans s.cap.upper)]
    rfl
  refine ⟨_, hrun, ?_, fun a ha => ?_, rfl⟩
  · change (s.writeBytes 0 bytes).readBytes 0 ((s.writeBytes 0 bytes).setLen bytes.length).len.toNat = bytes
    rw [State.setLen_toNat _ s.cap hcap, State.readBytes_writeBytes]
  · have hout : ¬ (0 ≤ a ∧ a < 0 + bytes.length) := by omega
    rw [State.sending_readBuf, State.setLen_readBuf, State.readBuf_writeBytes, if_neg hout]

/-! ### `LDKEY` and `LDIV` -/

/-- The block with `vs` stored from index `k` up, lower index first. -/
def Block.setFrom : Block → Nat → List Byte → Block
  | b, _, [] => b
  | b, k, v :: vs => Block.setFrom (b.set (Fin.ofNat 16 k) v) (k + 1) vs

/-- Bytes that fill the block from index `k` to its end. -/
theorem Block.setFrom_get {b : Block} {k : Nat} {vs : List Byte} (hk : k + vs.length = 16) {j : Nat} (hj : j < 16) :
    (Block.setFrom b k vs)[j] = if k ≤ j then vs.getD (j - k) 0 else b[j] := by
  induction vs generalizing b k with
  | nil =>
    have hout : ¬ k ≤ j := by simp only [List.length_nil] at hk; omega
    rw [if_neg hout]
    rfl
  | cons v vs ih =>
    rw [List.length_cons] at hk
    rw [Block.setFrom, ih (by omega), Vector.getElem_set]
    have hfin : (Fin.ofNat 16 k).val = k := Nat.mod_eq_of_lt (by omega)
    rw [hfin]
    rcases Nat.lt_trichotomy j k with hlt | rfl | hgt
    · simp (disch := omega) only [if_neg]
    · simp
    · obtain ⟨m, rfl⟩ : ∃ m, j = k + 1 + m := ⟨j - (k + 1), by omega⟩
      have hsub : k + 1 + m - k = m + 1 := by omega
      rw [if_pos (by omega), if_pos (by omega), hsub, Nat.add_sub_cancel_left, List.getD_cons_succ]

theorem Block.setFrom_toList (b : Block) {bytes : List Byte} (h : bytes.length = 16) :
    (Block.setFrom b 0 bytes).toList = bytes := by
  refine List.ext_getElem (by rw [Vector.length_toList, h]) fun j hj hj' => ?_
  rw [Vector.getElem_toList, Block.setFrom_get (by omega), if_pos (Nat.zero_le j), Nat.sub_zero,
    List.getD_eq_getElem _ _ hj']

/-- A register of sixteen bytes: `place j` is byte `j`, and `get` and `put` are the whole register. -/
structure IsBlockRegister (place : Fin 16 → Reg) (get : State → Block) (put : State → Block → State) : Prop where
  ne_cmd : ∀ j, place j ≠ .cmd
  wf : ∀ cap j, (place j).wf cap = true
  write : ∀ s v j, writeReg s v (place j) = put s ((get s).set j v)
  get_put : ∀ s b, get (put s b) = b
  put_put : ∀ s b c, put (put s b) c = put s c
  put_get : ∀ s, put s (get s) = s

theorem isBlockRegister_key : IsBlockRegister .key State.key fun s b => { s with key := b } where
  ne_cmd := nofun
  wf _ _ := rfl
  write _ _ _ := rfl
  get_put _ _ := rfl
  put_put _ _ _ := rfl
  put_get _ := rfl

theorem isBlockRegister_iv : IsBlockRegister .iv State.iv fun s b => { s with iv := b } where
  ne_cmd := nofun
  wf _ _ := rfl
  write _ _ _ := rfl
  get_put _ _ := rfl
  put_put _ _ _ := rfl
  put_get _ := rfl

section

variable {place : Fin 16 → Reg} {get : State → Block} {put : State → Block → State}

theorem IsBlockRegister.storeEach (h : IsBlockRegister place get put) (s : State) (k : Nat) (vs : List Byte) :
    storeEach s (fun j => place (Fin.ofNat 16 (k + j))) vs = put s (Block.setFrom (get s) k vs) := by
  induction vs generalizing s k with
  | nil => exact (h.put_get s).symm
  | cons v vs ih =>
    have hplace : (fun j => place (Fin.ofNat 16 (k + (j + 1)))) = fun j => place (Fin.ofNat 16 (k + 1 + j)) :=
      funext fun j => by rw [Nat.add_right_comm, Nat.add_assoc]
    rw [Machine.storeEach, hplace, ih, h.write, h.get_put, h.put_put, Block.setFrom, Nat.add_zero]

/-- Writes of sixteen bytes to a register in index order make them its contents. -/
theorem IsBlockRegister.runEvents_load (h : IsBlockRegister place get put) {bytes : List Byte}
    (hlen : bytes.length = 16) (s : State) :
    ∃ b : Block, runEvents (writeEach (fun j => place (Fin.ofNat 16 j)) bytes) s = .next ((put s b).sending []) ∧
      b.toList = bytes := by
  refine ⟨Block.setFrom (get s) 0 bytes, ?_, Block.setFrom_toList _ hlen⟩
  have hrun := runEvents_writeEach bytes (s := s) (place := fun j => place (Fin.ofNat 16 j))
    (fun j _ => ⟨h.ne_cmd _, h.wf _ _⟩) []
  have hstore := h.storeEach s 0 bytes
  simp only [Nat.zero_add] at hstore
  rw [List.append_nil, hstore] at hrun
  exact hrun

end

/-- Settles O46: write `j` sets byte `j`, and sixteen of them replace the whole register. -/
theorem ldKeyAndLdIvLoadSixteenBytes : Obligations.LdKeyAndLdIvLoadSixteenBytes := by
  unfold Obligations.LdKeyAndLdIvLoadSixteenBytes
  intro s bytes len h
  simp only [Stmt.expand, Stmt.transactions, Stmt.followUp, List.append_nil]
  obtain ⟨key, hkey, hkeyBytes⟩ := isBlockRegister_key.runEvents_load h s
  obtain ⟨iv, hiv, hivBytes⟩ := isBlockRegister_iv.runEvents_load h s
  exact ⟨⟨_, hkey, hkeyBytes, rfl⟩, ⟨_, hiv, hivBytes, rfl⟩⟩

end Sys2Proof.Machine
end

section
/-! # Programs of the host's statements

Running a statement is running its expansion (`runStmt_of_followUp_nil`, `runStmt_getMsg_eq_expand`), since a run always
comes to its end with nothing left to send (`runEvents_next`); `GETMSG` after any program follows. -/

namespace Sys2Proof.Machine

/-! ### Every run comes to its end -/

theorem CommandEffect.pending {i : Instr} {s t : State} (h : CommandEffect i s t) : t.pending = s.pending := by
  cases h with
  | ignored | faulted | rejected => rfl
  | completed _ _ _ hw =>
    obtain ⟨-, -, -, -, -, -, hpending, -⟩ := hw.operands
    exact hpending

/-- No event takes anything off the host's list but itself. -/
theorem EventEffect.pending {s t : State} (h : EventEffect s t) : t.pending = s.pending := by
  cases h with
  | ignored | observed | reset => rfl
  | stored v hr => rename_i r; cases r <;> rfl
  | illegal => rcases illegalCommand_cases s with he | he <;> rw [he]; rfl
  | command heffect => exact heffect.pending

theorem exec_next (i : Instr) (s : State) : ∃ t, exec i s = .next t := by
  by_cases hi : i = .clr
  · exact ⟨_, hi ▸ exec_clr s⟩
  · exact ⟨_, exec_eq_issued hi s⟩

/-- No event is refused and none stops the machine (`20_memory.md` R53, R54). -/
theorem hostEvent_next (e : HostEvent) (s : State) : ∃ t, hostEvent e s = .next t := by
  cases e with
  | read addr => exact ⟨_, rfl⟩
  | reset => exact ⟨_, rfl⟩
  | write addr v =>
    change ∃ t, hostWrite addr v s = .next t
    unfold hostWrite issueByte
    split
    · split
      · exact exec_next _ s
      · exact ⟨_, rfl⟩
    · exact ⟨_, rfl⟩
    · exact ⟨_, rfl⟩

/-- Every run comes to its end with nothing left to send. -/
theorem runEvents_next (events : List HostEvent) (s : State) :
    ∃ t, runEvents events s = .next t ∧ t.pending = [] := by
  induction events generalizing s with
  | nil => exact ⟨_, runEvents_nil s, rfl⟩
  | cons e events ih =>
    obtain ⟨t, ht⟩ := hostEvent_next e (s.sending events)
    rw [runEvents_cons ht (hostEvent_effect ht).pending]
    exact ih t

/-! ### A statement and its expansion -/

theorem runStmt_of_followUp_nil {t : Stmt} (h : ∀ len, Stmt.followUp len t = []) (s : State) :
    runStmt t s = runEvents (Stmt.expand s.len.toNat t) s := by
  obtain ⟨u, hu, hpending⟩ := runEvents_next (Stmt.transactions t) s
  rw [runStmt, Stmt.expand, h, List.append_nil, hu, andThen_next, h, runEvents_nil, ← hpending]

/-- `LEN` as the two reads of `GETLEN` return it, low byte first. -/
def State.lenBytes (s : State) : List Byte := [s.len.extractLsb' 0 8, s.len.extractLsb' 8 8]

theorem runEvents_getLen (s : State) (rest : List HostEvent) :
    runEvents (expandGetLen ++ rest) s = runEvents rest (s.observeAll s.lenBytes) :=
  runEvents_reads [.lenL, .lenH] (by simp [Reg.wf]) rest

/-- After `GETLEN` the host knows `LEN`. -/
theorem State.lengthRead_lenBytes (s : State) : (s.observeAll s.lenBytes).lengthRead = s.len.toNat := by
  rw [State.lengthRead_of_observed (s := s.observeAll s.lenBytes) rfl, toNat_lowByte, toNat_highByte, Nat.div_add_mod]

/-- `GETMSG` asks for as many bytes as `GETLEN` has returned. -/
theorem runStmt_getMsg_eq_expand (s : State) :
    runStmt .getMsg s = runEvents (Stmt.expand s.len.toNat .getMsg) s := by
  have hgetLen : runEvents (Stmt.transactions .getMsg) s =
      .next ((s.observeAll s.lenBytes).sending []) := runEvents_getLen s []
  have hlength : ((s.observeAll s.lenBytes).sending []).lengthRead = s.len.toNat := s.lengthRead_lenBytes
  rw [runStmt, hgetLen, andThen_next, hlength, runEvents_sending]
  exact (runEvents_getLen s _).symm

/-- Settles O54: a statement other than `GETMSG` has no transactions that follow, and `GETMSG` follows the length read. -/
theorem eachStatementRunsItsExpansion : Obligations.EachStatementRunsItsExpansion := by
  unfold Obligations.EachStatementRunsItsExpansion
  intro t s
  cases t with
  | getMsg => exact runStmt_getMsg_eq_expand s
  | wr | rd | cmd | setLen | setBs | ldKey | ldIv | ldBuf | load | getLen | rdBuf =>
    exact runStmt_of_followUp_nil (fun _ => rfl) s

/-- `GETMSG` where `RDBUF 0, LEN` stays inside `BUF` (R89). -/
theorem runStmt_getMsg {s : State} (h : s.len.toNat ≤ s.cap.val) :
    runStmt .getMsg s = .next ((s.observeAll (s.lenBytes ++ s.message)).sending []) := by
  have hroom : 0 + s.len.toNat ≤ s.cap.val := by omega
  rw [runStmt_getMsg_eq_expand, State.observeAll_append]
  have hrdBuf := runEvents_rdBuf (s := s.observeAll s.lenBytes) hroom []
  rw [List.append_nil] at hrdBuf
  exact (runEvents_getLen s _).trans hrdBuf

/-! ### `GETMSG` after a program -/

theorem runProgram_append (before after : List Stmt) {s u : State} (h : runProgram before s = .next u) :
    runProgram (before ++ after) s = runProgram after u := by
  induction before generalizing s with
  | nil => cases h; rfl
  | cons t before ih =>
    rw [runProgram] at h
    rw [List.cons_append, runProgram]
    cases ht : runStmt t s with
    | next w =>
      rw [ht] at h
      exact ih h
    | fault f => cases f
    | refused r =>
      rw [ht] at h
      cases h

theorem runProgram_singleton (t : Stmt) (s : State) : runProgram [t] s = runStmt t s := by
  rw [runProgram]
  cases runStmt t s <;> rfl

/-- Settles O55: the program is run to its end, and then `GETMSG` reads `LEN` and `RDBUF 0, LEN`. -/
theorem getMsgObservesTheMessage : Obligations.GetMsgObservesTheMessage := by
  unfold Obligations.GetMsgObservesTheMessage
  intro before s u hrun hwf
  refine ⟨u.len.extractLsb' 0 8, u.len.extractLsb' 8 8, ?_, ?_⟩
  · rw [toNat_lowByte, toNat_highByte, Nat.div_add_mod]
  · rw [runProgram_append before [.getMsg] hrun, runProgram_singleton, runStmt_getMsg (of_decide_eq_true hwf),
      List.append_assoc]
    rfl

theorem runStmt_setLen {n : Nat} (h : n ≤ 65535) (s : State) :
    runStmt (.setLen n) s = .next ((s.setLen n).sending []) := by
  rw [runStmt_of_followUp_nil fun _ => rfl]
  exact runEvents_setLen h s []

/-- The two bytes that `GETLEN` reads after `SETLEN n`. -/
theorem State.lenBytes_setLen (s : State) {n : Nat} (h : n ≤ 65535) :
    (s.setLen n).lenBytes = [BitVec.ofNat 8 (n % 256), BitVec.ofNat 8 (n / 256)] := by
  simp only [State.lenBytes, State.setLen_len, ← append_bytes_ofNat h]
  rw [BitVec.extractLsb'_append_eq_left, BitVec.extractLsb'_append_eq_right]

/-- Settles O56: `GETMSG` runs in the state that `SETLEN n` has left. -/
theorem getMsgReadsTheLengthJustSet : Obligations.GetMsgReadsTheLengthJustSet := by
  unfold Obligations.GetMsgReadsTheLengthJustSet
  intro s n hn
  have hmax : n ≤ 65535 := hn.trans s.cap.upper
  have hlen : (s.setLen n).len.toNat = n := State.setLen_toNat s s.cap hn
  have hsetLen : runProgram [.setLen n] s = .next ((s.setLen n).sending []) := by
    rw [runProgram_singleton, runStmt_setLen hmax]
  have hmessage : (s.setLen n).message = s.readBytes 0 n := by
    rw [State.message, hlen]
    rfl
  have hgetMsg := runStmt_getMsg (s := (s.setLen n).sending []) (hlen.trans_le hn)
  rw [← runProgram_singleton, ← runProgram_append _ [.getMsg] hsetLen] at hgetMsg
  refine ⟨_, hgetMsg, hlen, ?_⟩
  rw [List.append_assoc, ← s.lenBytes_setLen hmax, ← hmessage]
  rfl

end Sys2Proof.Machine
end

section
/-! # The padding codec

`Pad(bs)` answers the state `State.padded`, which ends in valid padding (`State.padded_validPadding`); `Strippable(bs)` is
`ValidPadding` (`strippable_eq_some`). With a legal `BS`, STRIP and VALIDATE then differ on a message without valid padding
only: where there is some, both cut it off (`exec_of_validPadding`). -/

namespace Sys2Proof.Machine

/-! ### `Pad(bs)` -/

section

variable {s : State} {bs : Nat}

theorem padMessage_of_not_fits (h : ¬ s.fits bs) : padMessage bs s = .error .capacity := by
  rcases padMessage_cases bs s with ⟨_, he⟩ | ⟨hfit, _⟩
  · exact he
  · exact absurd hfit h

theorem padMessage_of_fits (h : s.fits bs) : padMessage bs s = .ok (padLength bs s.len.toNat, s.padded bs) := by
  rcases padMessage_cases bs s with ⟨hroom, _⟩ | ⟨_, he⟩
  · exact absurd h (Nat.not_le_of_lt hroom)
  · exact he

/-- A `Pad(bs)` that answers has found room and answers `State.padded`. -/
theorem padded_of_padMessage {p : Nat} {t : State} (h : padMessage bs s = .ok (p, t)) :
    s.fits bs ∧ p = padLength bs s.len.toNat ∧ t = s.padded bs := by
  by_cases hfit : s.fits bs
  · rw [padMessage_of_fits hfit] at h
    cases h
    exact ⟨hfit, rfl, rfl⟩
  · rw [padMessage_of_not_fits hfit] at h
    cases h

/-- `BUF` after `Pad(bs)`. -/
theorem State.padded_readBuf (s : State) (bs a : Nat) : (s.padded bs).readBuf a = s.paddedByte bs a :=
  readBuf_padded s bs _ a

/-- Below `LEN` the message is as it was. -/
theorem State.padded_readBuf_of_lt {a : Nat} (h : a < s.len.toNat) : (s.padded bs).readBuf a = s.readBuf a := by
  rw [State.padded_readBuf, State.paddedByte, if_neg (by omega)]

/-- A legal pad length survives the 8 bits of a byte. -/
theorem toNat_ofNat_padLength (n : Nat) (h1 : 1 ≤ bs) (h255 : bs ≤ 255) :
    (BitVec.ofNat 8 (padLength bs n)).toNat = padLength bs n := by
  obtain ⟨-, hle⟩ := padLength_bounds n h1
  exact Nat.mod_eq_of_lt (by omega)

/-- Each of the bytes appended is the pad length. -/
theorem State.padded_readBuf_pad (h1 : 1 ≤ bs) (h255 : bs ≤ 255) {a : Nat} (hlo : s.len.toNat ≤ a)
    (hhi : a < s.len.toNat + padLength bs s.len.toNat) :
    ((s.padded bs).readBuf a).toNat = padLength bs s.len.toNat := by
  rw [State.padded_readBuf, State.paddedByte, if_pos ⟨hlo, hhi⟩, toNat_ofNat_padLength _ h1 h255]

/-- What `Pad(bs)` leaves ends in valid padding (`40_padding_codec.md` R113). -/
theorem State.padded_validPadding (h1 : 1 ≤ bs) (h255 : bs ≤ 255) (h : s.fits bs) :
    ValidPadding bs (s.padded bs).len.toNat (s.padded bs).readBuf (padLength bs s.len.toNat) := by
  obtain ⟨hpos, hle⟩ := padLength_bounds s.len.toNat h1
  rw [State.padded_len h]
  refine ⟨by omega, ?_, hpos, hle, fun j hj => State.padded_readBuf_pad h1 h255 (by omega) (by omega)⟩
  rw [add_padLength _ h1, Nat.mul_mod_right]

end

/-- Settles O16: the state that `Pad(bs)` answers is `State.padded`. -/
theorem padProcedureAppends : Obligations.PadProcedureAppends := by
  unfold Obligations.PadProcedureAppends
  intro s bs _ _ _
  exact ⟨padMessage_of_not_fits,
    fun hfit => ⟨s.padded bs, padMessage_of_fits hfit, State.padded_len hfit, rfl, s.padded_readBuf bs⟩⟩

/-- Settles O17: what `Pad(bs)` leaves ends in valid padding, and its length is the next multiple of `bs`. -/
theorem padProcedureFacts : Obligations.PadProcedureFacts := by
  unfold Obligations.PadProcedureFacts
  intro s t bs p h1 h255 _ h
  obtain ⟨hfit, rfl, rfl⟩ := padded_of_padMessage h
  obtain ⟨hpos, hmod, hp1, hple, hbytes⟩ := State.padded_validPadding h1 h255 hfit
  have hlen := State.padded_len hfit
  refine ⟨hlen, hlen.trans (add_padLength _ h1), hmod, hpos, hp1, hple, hbytes 0 hp1, fun j hj => ?_, fun h0 => ?_⟩
  · exact State.padded_readBuf_pad h1 h255 (by omega) (by omega)
  · rw [padLength, h0, Nat.sub_zero]

/-! ### `Strippable(bs)` and `Strip(bs)` -/

section

variable {s : State} {bs n p : Nat} {byteAt : Nat → Byte}

/-- Valid padding spells its length in the last byte. -/
theorem ValidPadding.last (h : ValidPadding bs n byteAt p) : (byteAt (n - 1)).toNat = p := by
  obtain ⟨-, -, hp1, -, hbytes⟩ := h
  exact hbytes 0 hp1

theorem strippable_of_validPadding (h : ValidPadding bs s.len.toNat s.readBuf p) : strippable bs s = some p := by
  have hlast := h.last
  obtain ⟨hpos, hmod, hp1, hple, hbytes⟩ := h
  have hall : ((List.range p).all fun j => (s.readBuf (s.len.toNat - 1 - j)).toNat = p) = true :=
    List.all_eq_true.mpr fun j hj => decide_eq_true (hbytes j (List.mem_range.mp hj))
  simp only [strippable, hlast]
  rw [if_neg (by omega), if_neg (by omega), if_neg (by omega), if_pos hall]

/-- `Strippable(bs)` is `ValidPadding` (`40_padding_codec.md` R105). -/
theorem strippable_eq_some : strippable bs s = some p ↔ ValidPadding bs s.len.toNat s.readBuf p :=
  ⟨strippable_some, strippable_of_validPadding⟩

theorem strippable_eq_none (h : ¬ ∃ p, ValidPadding bs s.len.toNat s.readBuf p) : strippable bs s = none :=
  Option.eq_none_iff_forall_ne_some.mpr fun p hp => h ⟨p, strippable_some hp⟩

theorem stripPadding_of_validPadding (h : ValidPadding bs s.len.toNat s.readBuf p) :
    stripPadding bs s = s.setLen (s.len.toNat - p) := by
  simp only [stripPadding, strippable_of_validPadding h]

theorem stripPadding_of_not_validPadding (h : ¬ ∃ p, ValidPadding bs s.len.toNat s.readBuf p) :
    stripPadding bs s = s := by
  simp only [stripPadding, strippable_eq_none h]

/-- A length at most `LEN` survives the 16 bits of `LEN`. -/
theorem State.setLen_toNat_of_le (h : n ≤ s.len.toNat) : (s.setLen n).len.toNat = n :=
  Nat.mod_eq_of_lt (Nat.lt_of_le_of_lt h s.len.isLt)

/-- Cutting off valid padding shortens the message. -/
theorem ValidPadding.setLen_ne (h : ValidPadding bs s.len.toNat s.readBuf p) :
    (s.setLen (s.len.toNat - p)).len ≠ s.len := by
  intro heq
  have hlen := State.setLen_toNat_of_le (s := s) (Nat.sub_le s.len.toNat p)
  obtain ⟨hpos, -, hp1, -⟩ := h
  rw [heq] at hlen
  omega

end

/-- Settles O18: valid padding is what `Strippable(bs)` tests for, and it is no longer than the message. -/
theorem strippableIsValidPadding : Obligations.StrippableIsValidPadding := by
  unfold Obligations.StrippableIsValidPadding
  intro s bs p _ _ _
  exact ⟨strippable_eq_some, fun h => (strippable_some h).le⟩

/-! ### The codec's commands behind their tests -/

theorem exec_pad (s : State) : exec .pad s = .next (issued (withBlockSize padRule) s) := rfl

theorem exec_strip (s : State) : exec .strip s = .next (issued (withBlockSize stripRule) s) := rfl

theorem exec_validate (s : State) : exec .validate s = .next (issued (withBlockSize validateRule) s) := rfl

/-- A legal `BS` (`10_state.md` R24). -/
theorem State.bs_bounds {s : State} (h : s.bs ≠ 0) : 1 ≤ s.bs.toNat ∧ s.bs.toNat ≤ 255 := by
  have hne : s.bs.toNat ≠ 0 := fun h0 => h (BitVec.eq_of_toNat_eq h0)
  have hlt := s.bs.isLt
  omega

section

variable {s : State} {i : Instr} {rule : Nat → State → State}

/-- `BS = 0` faults before the command's rule (`60_exceptions.md` R165). -/
theorem exec_of_bs_zero (hi : exec i s = .next (issued (withBlockSize rule) s)) (hs : s.accepts) (hbs : s.bs = 0) :
    exec i s = .next (s.raiseFault .invalidBlockSize) := by
  have hzero : s.bs.toNat = 0 := congrArg BitVec.toNat hbs
  rw [hi, issued_of_accepts hs, withBlockSize, if_pos hzero]

theorem exec_of_bs_ne (hi : exec i s = .next (issued (withBlockSize rule) s)) (hs : s.accepts) (hbs : s.bs ≠ 0) :
    exec i s = .next (rule s.bs.toNat s) := by
  obtain ⟨hpos, -⟩ := State.bs_bounds hbs
  rw [hi, issued_of_accepts hs, withBlockSize, if_neg (by omega)]

end

/-! ### PAD -/

section

variable {s : State}

theorem exec_pad_of_not_fits (hs : s.accepts) (hbs : s.bs ≠ 0) (hfit : ¬ s.fits s.bs.toNat) :
    exec .pad s = .next (s.raiseFault .capacity) := by
  rw [exec_of_bs_ne (exec_pad s) hs hbs, padRule, padMessage_of_not_fits hfit]

/-- The state that PAD ends in where the padded message fits (R103). -/
def State.afterPad (s : State) : State :=
  ((s.padded s.bs.toNat).setResult (padLength s.bs.toNat s.len.toNat)).finish .ok

theorem exec_pad_of_fits (hs : s.accepts) (hbs : s.bs ≠ 0) (hfit : s.fits s.bs.toNat) :
    exec .pad s = .next s.afterPad := by
  rw [exec_of_bs_ne (exec_pad s) hs hbs, padRule, padMessage_of_fits hfit, State.afterPad]

theorem State.afterPad_len (hfit : s.fits s.bs.toNat) :
    s.afterPad.len.toNat = s.len.toNat + padLength s.bs.toNat s.len.toNat :=
  State.padded_len hfit

theorem State.afterPad_result (hbs : s.bs ≠ 0) :
    s.afterPad.result.toNat = padLength s.bs.toNat s.len.toNat := by
  obtain ⟨hpos, hmax⟩ := State.bs_bounds hbs
  exact toNat_ofNat_padLength _ hpos hmax

theorem State.afterPad_isOk (hs : s.accepts) : s.afterPad.isOk := ⟨hs.1, rfl⟩

theorem State.afterPad_keepsOperands (s : State) : keepsOperands s s.afterPad :=
  (s.padded_writesWithin s.bs.toNat (Nat.le_refl _)).operands

/-- After PAD the next command is accepted (R167). -/
theorem State.afterPad_accepts (hs : s.accepts) (hfit : s.fits s.bs.toNat) : s.afterPad.accepts :=
  ⟨hs.1, (State.afterPad_len hfit).trans_le hfit⟩

end

/-- Settles O19: PAD is `Pad(BS)` and then `RESULT` and `OK`. -/
theorem padAppendsPadding : Obligations.PadAppendsPadding := by
  unfold Obligations.PadAppendsPadding
  intro s hs
  exact ⟨hostWrite_encode .pad s, exec_of_bs_zero (exec_pad s) hs, exec_pad_of_not_fits hs, fun hbs hfit =>
    ⟨s.afterPad, exec_pad_of_fits hs hbs hfit, State.afterPad_isOk hs, State.afterPad_len hfit,
      State.afterPad_result hbs, s.afterPad_keepsOperands, s.padded_readBuf s.bs.toNat⟩⟩

/-! ### STRIP and VALIDATE -/

section

variable {s : State} {i : Instr}

/-- The state that STRIP and VALIDATE end in where they cut the message to `n` bytes (R108, R112). -/
def State.cutTo (s : State) (n : Nat) : State := (s.setLen n).finish .ok

theorem State.cutTo_len {n : Nat} (h : n ≤ s.len.toNat) : (s.cutTo n).len.toNat = n := State.setLen_toNat_of_le h

theorem State.cutTo_isOk (hs : s.accepts) (n : Nat) : (s.cutTo n).isOk := ⟨hs.1, rfl⟩

theorem State.cutTo_keepsOperands (s : State) (n : Nat) : keepsOperands s (s.cutTo n) :=
  ((WritesWithin.refl 0 0 s).setLen n).operands

theorem State.cutTo_keepsBuf (s : State) (n : Nat) : keepsBuf s (s.cutTo n) := s.setLen_readBuf n

/-- Cutting a longer message back to the length of `s`. -/
theorem State.cutTo_len_eq (s t : State) : (t.cutTo s.len.toNat).len = s.len := by
  rw [State.cutTo, State.finish_len, State.setLen_len, BitVec.ofNat_toNat, BitVec.setWidth_eq]

/-- Cutting to the whole length changes `STATUS` only. -/
theorem State.cutTo_self (s : State) : s.cutTo s.len.toNat = s.finish .ok := by
  simp [State.cutTo, State.setLen]

/-- On valid padding STRIP and VALIDATE do the same: they cut it off. -/
theorem exec_of_validPadding (hi : i = .validate ∨ i = .strip) (hs : s.accepts) (hbs : s.bs ≠ 0) {p : Nat}
    (h : ValidPadding s.bs.toNat s.len.toNat s.readBuf p) : exec i s = .next (s.cutTo (s.len.toNat - p)) := by
  rcases hi with rfl | rfl
  · rw [exec_of_bs_ne (exec_validate s) hs hbs, validateRule, strippable_of_validPadding h, State.cutTo]
  · rw [exec_of_bs_ne (exec_strip s) hs hbs, stripRule, stripPadding_of_validPadding h, State.cutTo]

theorem exec_strip_of_not_validPadding (hs : s.accepts) (hbs : s.bs ≠ 0)
    (h : ¬ ∃ p, ValidPadding s.bs.toNat s.len.toNat s.readBuf p) : exec .strip s = .next (s.finish .ok) := by
  rw [exec_of_bs_ne (exec_strip s) hs hbs, stripRule, stripPadding_of_not_validPadding h]

theorem exec_validate_of_not_validPadding (hs : s.accepts) (hbs : s.bs ≠ 0)
    (h : ¬ ∃ p, ValidPadding s.bs.toNat s.len.toNat s.readBuf p) :
    exec .validate s = .next (s.finish .invalidPadding) := by
  rw [exec_of_bs_ne (exec_validate s) hs hbs, validateRule, strippable_eq_none h]

/-- With a legal `BS`, STRIP cuts the message to some length. -/
theorem exec_strip_eq_cutTo (hs : s.accepts) (hbs : s.bs ≠ 0) : ∃ n, exec .strip s = .next (s.cutTo n) := by
  by_cases h : ∃ p, ValidPadding s.bs.toNat s.len.toNat s.readBuf p
  · obtain ⟨p, hp⟩ := h
    exact ⟨_, exec_of_validPadding (.inr rfl) hs hbs hp⟩
  · exact ⟨_, by rw [exec_strip_of_not_validPadding hs hbs h, State.cutTo_self]⟩

/-- `STATUS` after a result: no fault, and the code (`10_state.md` R27). -/
theorem statusByte_of_running (hf : s.fault = false) : (statusByte s).toNat = s.code.toNat := by
  rw [statusByte_toNat, hf]
  exact Nat.zero_add _

end

/-- Settles O20: STRIP cuts the message, by the length of its valid padding or not at all. -/
theorem stripRemovesBestEffort : Obligations.StripRemovesBestEffort := by
  unfold Obligations.StripRemovesBestEffort
  intro s hs
  refine ⟨hostWrite_encode .strip s, exec_of_bs_zero (exec_strip s) hs, fun hbs => ?_⟩
  obtain ⟨n, hn⟩ := exec_strip_eq_cutTo hs hbs
  refine ⟨s.cutTo n, hn, State.cutTo_isOk hs n, rfl, s.cutTo_keepsOperands n, s.cutTo_keepsBuf n, fun p hp => ?_,
    fun hnone => ?_⟩
  · rw [exec_of_validPadding (.inr rfl) hs hbs hp] at hn
    injection hn with hcut
    rw [← hcut, State.cutTo_len (Nat.sub_le _ p)]
  · rw [exec_strip_of_not_validPadding hs hbs hnone] at hn
    injection hn with hcut
    rw [← hcut, State.finish_len]

/-- Settles O21: VALIDATE cuts valid padding off, and otherwise ends in the result `InvalidPadding`. -/
theorem validateAcceptsOrRejects : Obligations.ValidateAcceptsOrRejects := by
  unfold Obligations.ValidateAcceptsOrRejects
  intro s hs
  refine ⟨hostWrite_encode .validate s, exec_of_bs_zero (exec_validate s) hs, fun hbs => ⟨fun p hp => ?_, fun hnone => ?_⟩⟩
  · exact ⟨_, exec_of_validPadding (.inl rfl) hs hbs hp, State.cutTo_isOk hs _, State.cutTo_len (Nat.sub_le _ p), rfl,
      s.cutTo_keepsOperands _, s.cutTo_keepsBuf _⟩
  · exact ⟨_, exec_validate_of_not_validPadding hs hbs hnone,
      BitVec.eq_of_toNat_eq (statusByte_of_running (s := s.finish .invalidPadding) hs.1), rfl⟩

/-- Settles O22: on valid padding both commands cut it off; without it STRIP leaves `LEN` and VALIDATE reports
`InvalidPadding`. -/
theorem stripAgreesWithValidate : Obligations.StripAgreesWithValidate := by
  unfold Obligations.StripAgreesWithValidate
  refine ⟨fun s bs _ _ _ => ⟨fun p hp => ?_, stripPadding_of_not_validPadding, ?_⟩, fun s t u hs hbs ht hu => ?_⟩
  · rw [stripPadding_of_validPadding hp]
    exact ⟨State.setLen_toNat_of_le (Nat.sub_le _ p), hp.setLen_ne⟩
  · obtain ⟨n, -, hn⟩ := stripPadding_eq_setLen bs s
    rw [hn]
    rfl
  · by_cases h : ∃ p, ValidPadding s.bs.toNat s.len.toNat s.readBuf p
    · obtain ⟨p, hp⟩ := h
      rw [exec_of_validPadding (.inr rfl) hs hbs hp] at ht
      rw [exec_of_validPadding (.inl rfl) hs hbs hp] at hu
      cases ht
      cases hu
      exact ⟨rfl, fun _ => hp.setLen_ne, fun _ => State.cutTo_isOk hs _⟩
    · rw [exec_strip_of_not_validPadding hs hbs h] at ht
      rw [exec_validate_of_not_validPadding hs hbs h] at hu
      cases ht
      cases hu
      have hcode : ResultCode.invalidPadding.bits ≠ 0 := by decide
      exact ⟨rfl, fun hok => absurd hok.2 hcode, fun hne => absurd rfl hne⟩

/-- No padding is valid whose last byte announces a run that is not there (`40_padding_codec.md` R115). -/
theorem not_validPadding_of_run {bs n : Nat} {byteAt : Nat → Byte}
    (h : ∃ j < (byteAt (n - 1)).toNat, byteAt (n - 1 - j) ≠ byteAt (n - 1)) : ¬ ∃ p, ValidPadding bs n byteAt p := by
  rintro ⟨p, hp⟩
  obtain ⟨j, hj, hne⟩ := h
  have hlast := hp.last
  obtain ⟨-, -, -, -, hbytes⟩ := hp
  rw [hlast] at hj
  exact hne (BitVec.eq_of_toNat_eq ((hbytes j hj).trans hlast.symm))

/-- No padding is valid whose last byte is no pad length from 1 to `bs`. -/
theorem not_validPadding_of_last {bs n : Nat} {byteAt : Nat → Byte}
    (h : byteAt (n - 1) = 0 ∨ bs < (byteAt (n - 1)).toNat) : ¬ ∃ p, ValidPadding bs n byteAt p := by
  rintro ⟨p, hp⟩
  have hlast := hp.last
  obtain ⟨-, -, hp1, hple, -⟩ := hp
  rcases h with hzero | hgt
  · rw [hzero] at hlast
    have hp0 : 0 = p := hlast
    omega
  · omega

/-- Settles O23: in none of the cases is the padding valid; the source's example is an inconsistent run. -/
theorem validateRejectsTheListedCases : Obligations.ValidateRejectsTheListedCases := by
  unfold Obligations.ValidateRejectsTheListedCases
  intro s hs hbs _ hcase
  refine exec_validate_of_not_validPadding hs hbs ?_
  rcases hcase with hzero | hgt | hrun | ⟨_, -, -, hfive, hfour⟩
  · exact not_validPadding_of_last (.inl hzero)
  · exact not_validPadding_of_last (.inr hgt)
  · exact not_validPadding_of_run hrun
  · refine not_validPadding_of_run ⟨1, ?_, ?_⟩
    · rw [hfour]
      decide
    · rw [Nat.sub_sub, hfive, hfour]
      decide

/-! ### PAD and the truncating commands one after the other -/

/-- Cutting off what PAD appended leaves the message as it was. -/
theorem State.afterPad_cutTo_message (s : State) : (s.afterPad.cutTo s.len.toNat).message = s.message := by
  rw [State.message, State.message, s.cutTo_len_eq, State.readBytes, State.readBytes]
  refine List.map_congr_left fun j hj => ?_
  rw [Nat.zero_add]
  exact State.padded_readBuf_of_lt (List.mem_range.mp hj)

/-- Settles O24: what PAD appends is valid padding, and VALIDATE and STRIP cut off just that. -/
theorem padThenStripRestoresTheMessage : Obligations.PadThenStripRestoresTheMessage := by
  unfold Obligations.PadThenStripRestoresTheMessage
  intro s i hi hs hbs hfit
  obtain ⟨hpos, hmax⟩ := State.bs_bounds hbs
  have hvalid : ValidPadding s.afterPad.bs.toNat s.afterPad.len.toNat s.afterPad.readBuf
      (padLength s.bs.toNat s.len.toNat) := State.padded_validPadding hpos hmax hfit
  have hexec := exec_of_validPadding hi (State.afterPad_accepts hs hfit) hbs hvalid
  rw [State.afterPad_len hfit, Nat.add_sub_cancel] at hexec
  refine ⟨_, _, exec_pad_of_fits hs hbs hfit, hexec, s.cutTo_len_eq _, ?_, State.afterPad_result hbs,
    s.afterPad_cutTo_message⟩
  exact BitVec.eq_of_toNat_eq (statusByte_of_running (s := s.afterPad.cutTo s.len.toNat) hs.1)

/-- A last byte `0x01` is valid padding of length 1, whoever wrote it. -/
theorem validPadding_one {bs n : Nat} {byteAt : Nat → Byte} (hbs : 1 ≤ bs) (hn : 0 < n) (hmod : n % bs = 0)
    (hlast : byteAt (n - 1) = 0x01) : ValidPadding bs n byteAt 1 := by
  refine ⟨hn, hmod, Nat.le_refl 1, hbs, fun j hj => ?_⟩
  rw [Nat.lt_one_iff.mp hj, Nat.sub_zero, hlast]
  rfl

/-- Settles O25: a last byte `0x01` is valid padding; and where STRIP leaves the message, PAD lengthens it. -/
theorem stripMayAcceptWhatPadDidNotMake : Obligations.StripMayAcceptWhatPadDidNotMake := by
  unfold Obligations.StripMayAcceptWhatPadDidNotMake
  refine ⟨fun s hs hbs hn hmod hlast => ?_, fun s hs hbs hfit hnone => ?_⟩
  · obtain ⟨hpos, -⟩ := State.bs_bounds hbs
    have hvalid := validPadding_one hpos hn hmod hlast
    have hboth : ∀ i, i = .validate ∨ i = .strip →
        ∃ t, exec i s = .next t ∧ t.isOk ∧ t.len.toNat = s.len.toNat - 1 := fun i hi =>
      ⟨_, exec_of_validPadding hi hs hbs hvalid, State.cutTo_isOk hs _, State.cutTo_len (Nat.sub_le _ 1)⟩
    exact ⟨hboth _ (.inl rfl), hboth _ (.inr rfl)⟩
  · obtain ⟨hpos, -⟩ := State.bs_bounds hbs
    obtain ⟨hpad, -⟩ := padLength_bounds s.len.toNat hpos
    have hlen : (s.finish .ok).afterPad.len.toNat = s.len.toNat + padLength s.bs.toNat s.len.toNat :=
      State.afterPad_len (s := s.finish .ok) hfit
    exact ⟨_, _, exec_strip_of_not_validPadding hs hbs hnone, exec_pad_of_fits (s := s.finish .ok) hs hbs hfit,
      by omega⟩

end Sys2Proof.Machine
end

section
/-! # The block chainer

Each chainer command is a block loop inside a frame: the encrypt commands pad first, the decrypt commands test `LEN` first
and strip last. What a loop does is a function of `KEY`, the starting value of `CHAIN` and the blocks it reads (`BlockMap`,
`IsBlockLoop`); what the two frames make of it is said once, in `Encrypted` and `Decrypted`, and the statements of
`41_block_chaining.md` are read off these two. -/

namespace Sys2Proof.Machine

/-! ### The block loops -/

/-- The blocks that a loop of the chainer puts out, from `KEY`, `IV` and the blocks it reads. -/
abbrev BlockMap := Block → Block → (Nat → Block) → Nat → Block

/-- Each block on its own (`41_block_chaining.md` R122, R124); `ecbLoop_isBlockLoop` ties it to the loop. -/
def ecbMap (f : Prim) : BlockMap := fun key _ blocks i => f key (blocks i)

/-- The loop writes blocks 0, 1, … of the message as the map `out` has them, and block `i` of `out` depends on no block it
reads after block `i`. -/
structure IsBlockLoop (loop : State → State) (out : BlockMap) : Prop where
  writes : WritesBlocks loop
  readBuf : ∀ s a, (loop s).readBuf a = blocksOver s.blocks (out s.key s.iv s.readBlock) s.readBuf a
  causal : ∀ key iv {b c : Nat → Block} {i}, (∀ j ≤ i, b j = c j) → out key iv b i = out key iv c i

theorem ecbLoop_isBlockLoop (f : Prim) : IsBlockLoop (fun t => ecbLoop (f t.key) t t.blocks) (ecbMap f) where
  writes := ecbLoop_writesBlocks f
  readBuf s := ecbLoop_readBuf (f s.key) s s.blocks
  causal key _ _ _ i h := congrArg (f key) (h i (Nat.le_refl i))

/-- A ciphertext block of CBC depends on the plaintext blocks up to its own. -/
theorem cbcCipher_causal (f : Block → Block) (iv : Block) {b c : Nat → Block} {i : Nat} (h : ∀ j ≤ i, b j = c j) :
    cbcCipher f iv b i = cbcCipher f iv c i := by
  induction i with
  | zero => rw [cbcCipher_zero, cbcCipher_zero, h 0 (Nat.le_refl 0)]
  | succ i ih =>
    rw [cbcCipher_succ, cbcCipher_succ, h (i + 1) (Nat.le_refl _), ih fun j hj => h j (Nat.le_succ_of_le hj)]

/-- A block is chained with the ciphertext block before it. -/
theorem chained_congr (iv : Block) {b c : Nat → Block} {i : Nat} (h : ∀ j < i, b j = c j) :
    chained iv b i = chained iv c i := by
  cases i with
  | zero => rfl
  | succ i => exact h i (Nat.lt_succ_self i)

/-- A plaintext block of CBC depends on its own ciphertext block and on the one before. -/
theorem cbcPlain_causal (f : Block → Block) (iv : Block) {b c : Nat → Block} {i : Nat} (h : ∀ j ≤ i, b j = c j) :
    cbcPlain f iv b i = cbcPlain f iv c i := by
  rw [cbcPlain, cbcPlain, h i (Nat.le_refl i), chained_congr iv fun j hj => h j (Nat.le_of_lt hj)]

theorem cbcEncLoop_isBlockLoop (f : Prim) :
    IsBlockLoop (fun t => (cbcEncLoop (f t.key) t t.blocks).1) fun key => cbcCipher (f key) where
  writes := cbcEncLoop_writesBlocks f
  readBuf s := (cbcEncLoop_spec (f s.key) s s.blocks).2
  causal key iv _ _ _ h := cbcCipher_causal (f key) iv h

theorem cbcDecLoop_isBlockLoop (f : Prim) :
    IsBlockLoop (fun t => (cbcDecLoop (f t.key) t t.blocks).1) fun key => cbcPlain (f key) where
  writes := cbcDecLoop_writesBlocks f
  readBuf s := (cbcDecLoop_spec (f s.key) s s.blocks).2
  causal key iv _ _ _ h := cbcPlain_causal (f key) iv h

/-! ### The encrypt commands' frame -/

/-- `t` is what an encrypt command leaves that completes from `s`, with `out` as its ciphertext blocks (R122, R130). -/
structure Encrypted (s : State) (out : Nat → Block) (t : State) : Prop where
  isOk : t.isOk
  len : t.len.toNat = 16 * s.paddedBlocks
  result : t.result = s.result
  operands : keepsOperands s t
  readBuf : ∀ a, t.readBuf a = blocksOver s.paddedBlocks out s.readBuf a

section

variable {s t : State} {loop : State → State} {out : BlockMap}

theorem State.fits_sixteen : s.fits 16 ↔ 16 * s.paddedBlocks ≤ s.cap.val := by
  have hpad := add_padLength s.len.toNat (bs := 16) (by decide)
  change s.len.toNat + padLength 16 s.len.toNat ≤ _ ↔ _
  rw [hpad, State.paddedBlocks]

/-- `LEN` of the padded message is a number of whole blocks (R122). -/
theorem State.padded_len_sixteen (h : s.fits 16) : (s.padded 16).len.toNat = 16 * s.paddedBlocks :=
  (State.padded_len h).trans (add_padLength _ (by decide))

theorem State.padded_blocks (h : s.fits 16) : (s.padded 16).blocks = s.paddedBlocks := by
  rw [State.blocks, State.padded_len_sixteen h, Nat.mul_div_cancel_left _ (by decide)]

theorem State.padded_readBlock (s : State) : (s.padded 16).readBlock = s.paddedBlock := by
  funext i
  simp only [State.readBlock, State.paddedBlock, State.padded_readBuf]

/-- Above the padded message the padding changes nothing. -/
theorem State.paddedByte_above (s : State) {a : Nat} (h : 16 * s.paddedBlocks ≤ a) :
    s.paddedByte 16 a = s.readBuf a := by
  have hpad := add_padLength s.len.toNat (bs := 16) (by decide)
  rw [State.paddedBlocks] at h
  rw [State.paddedByte, if_neg (by omega)]

theorem blocksOver_congr {n : Nat} {out out' : Nat → Block} {rest rest' : Nat → Byte} {a : Nat}
    (hout : ∀ i < n, out i = out' i) (hrest : 16 * n ≤ a → rest a = rest' a) :
    blocksOver n out rest a = blocksOver n out' rest' a := by
  unfold blocksOver
  split
  · rw [hout _ (by omega)]
  · exact hrest (by omega)

theorem paddedThen_of_not_fits (loop : State → State) (h : ¬ s.fits 16) :
    paddedThen loop s = s.raiseFault .capacity := by
  rw [paddedThen, padMessage_of_not_fits h]

theorem paddedThen_of_fits (loop : State → State) (h : s.fits 16) :
    paddedThen loop s = (loop (s.padded 16)).finish .ok := by
  rw [paddedThen, padMessage_of_fits h]

theorem encrypted_of_fits (h : IsBlockLoop loop out) (hs : s.accepts) (hfit : s.fits 16) :
    Encrypted s (out s.key s.iv s.paddedBlock) (issued (paddedThen loop) s) := by
  have hwithin := s.padded_writesWithin 16 (Nat.zero_le _)
  rw [← State.padded_len hfit] at hwithin
  have hloop := h.writes.writesWithin hwithin
  obtain ⟨-, -, -, hlen, hresult, -⟩ := (h.writes.sameButBuf (s.padded 16)).fields
  rw [issued_of_accepts hs, paddedThen_of_fits loop hfit]
  refine ⟨⟨hloop.fault.trans hs.1, rfl⟩, ?_, hresult, hloop.operands, fun a => ?_⟩
  · rw [State.finish_len, hlen, State.padded_len_sixteen hfit]
  · rw [State.finish_readBuf, h.readBuf, State.padded_blocks hfit, State.padded_readBlock]
    refine blocksOver_congr (fun _ _ => rfl) fun ha => ?_
    rw [State.padded_readBuf, State.paddedByte_above s ha]

theorem Encrypted.readBlock {out : Nat → Block} (h : Encrypted s out t) {i : Nat} (hi : i < s.paddedBlocks) :
    t.readBlock i = out i := readBlock_of_blocksOver_lt h.readBuf hi

end

/-! ### The decrypt commands' frame -/

/-- `t` is what a decrypt command leaves that completes from `s`, with `out` as its plaintext blocks, `Strip(16)` included
(R124, R134). -/
structure Decrypted (s : State) (out : Nat → Block) (t : State) : Prop where
  isOk : t.isOk
  result : t.result = s.result
  operands : keepsOperands s t
  readBuf : ∀ a, t.readBuf a = blocksOver s.blocks out s.readBuf a
  stripped : ∀ p, ValidPadding 16 s.len.toNat t.readBuf p → t.len.toNat = s.len.toNat - p
  unstripped : (¬ ∃ p, ValidPadding 16 s.len.toNat t.readBuf p) → t.len = s.len

section

variable {s t : State} {loop : State → State} {out : BlockMap}

theorem alignedThen_of_not_wholeBlocks (loop : State → State) (h : ¬ s.wholeBlocks) :
    alignedThen loop s = s.raiseFault .invalidLength := by
  rcases alignedThen_cases loop s with ⟨_, he⟩ | ⟨hpos, hmod, _⟩
  · exact he
  · exact absurd ⟨hpos, hmod⟩ h

theorem alignedThen_of_wholeBlocks (loop : State → State) (h : s.wholeBlocks) :
    alignedThen loop s = (stripPadding 16 (loop s)).finish .ok := by
  obtain ⟨hpos, hmod⟩ := h
  rcases alignedThen_cases loop s with ⟨hbad, _⟩ | ⟨_, _, he⟩
  · omega
  · exact he

theorem stripPadding_readBuf (bs : Nat) (s : State) (a : Nat) : (stripPadding bs s).readBuf a = s.readBuf a := by
  obtain ⟨n, -, he⟩ := stripPadding_eq_setLen bs s
  rw [he, State.setLen_readBuf]

theorem decrypted_of_wholeBlocks (h : IsBlockLoop loop out) (hs : s.accepts) (hwhole : s.wholeBlocks) :
    Decrypted s (out s.key s.iv s.readBlock) (issued (alignedThen loop) s) := by
  have hloop := h.writes.writesWithin (WritesWithin.refl 0 s.len.toNat s)
  obtain ⟨-, -, -, hlen, hresult, -⟩ := (h.writes.sameButBuf s).fields
  have hread : ((stripPadding 16 (loop s)).finish .ok).readBuf = (loop s).readBuf :=
    funext (stripPadding_readBuf 16 (loop s))
  rw [issued_of_accepts hs, alignedThen_of_wholeBlocks loop hwhole]
  obtain ⟨n, -, hstrip⟩ := stripPadding_eq_setLen 16 (loop s)
  refine ⟨?_, ?_, ?_, fun a => ?_, fun p hp => ?_, fun hnone => ?_⟩
  · rw [hstrip]
    exact ⟨hloop.fault.trans hs.1, rfl⟩
  · rw [hstrip]
    exact hresult
  · rw [hstrip]
    exact hloop.operands
  · rw [hread, h.readBuf]
  · rw [hread, ← hlen] at hp
    rw [State.finish_len, stripPadding_of_validPadding hp, State.setLen_toNat_of_le (Nat.sub_le _ p), hlen]
  · rw [hread, ← hlen] at hnone
    rw [State.finish_len, stripPadding_of_not_validPadding hnone, hlen]

theorem Decrypted.readBlock {out : Nat → Block} (h : Decrypted s out t) {i : Nat} (hi : i < s.blocks) :
    t.readBlock i = out i := readBlock_of_blocksOver_lt h.readBuf hi

/-- `Strip(16)` takes off nothing or 1 to 16 bytes (R137). -/
theorem Decrypted.len_cases {out : Nat → Block} (h : Decrypted s out t) :
    t.len = s.len ∨ ∃ p, 1 ≤ p ∧ p ≤ 16 ∧ t.len.toNat + p = s.len.toNat := by
  by_cases hvalid : ∃ p, ValidPadding 16 s.len.toNat t.readBuf p
  · obtain ⟨p, hp⟩ := hvalid
    have hle := hp.le
    have hlen := h.stripped p hp
    obtain ⟨-, -, hp1, hp16, -⟩ := hp
    exact .inr ⟨p, hp1, hp16, by omega⟩
  · exact .inl (h.unstripped hvalid)

end

/-! ### The four commands over any primitive -/

section

variable {s : State}

theorem ecbEnc_encrypted (E : Prim) (hs : s.accepts) (hfit : s.fits 16) :
    Encrypted s (fun i => E s.key (s.paddedBlock i)) (issued (ecbEncCommand E) s) :=
  encrypted_of_fits (ecbLoop_isBlockLoop E) hs hfit

theorem cbcEnc_encrypted (E : Prim) (hs : s.accepts) (hfit : s.fits 16) :
    Encrypted s (cbcCipher (E s.key) s.iv s.paddedBlock) (issued (cbcEncCommand E) s) :=
  encrypted_of_fits (cbcEncLoop_isBlockLoop E) hs hfit

theorem ecbDec_decrypted (D : Prim) (hs : s.accepts) (hwhole : s.wholeBlocks) :
    Decrypted s (fun i => D s.key (s.readBlock i)) (issued (ecbDecCommand D) s) :=
  decrypted_of_wholeBlocks (ecbLoop_isBlockLoop D) hs hwhole

theorem cbcDec_decrypted (D : Prim) (hs : s.accepts) (hwhole : s.wholeBlocks) :
    Decrypted s (cbcPlain (D s.key) s.iv s.readBlock) (issued (cbcDecCommand D) s) :=
  decrypted_of_wholeBlocks (cbcDecLoop_isBlockLoop D) hs hwhole

/-! ### The machine's commands -/

theorem exec_ecbEnc (s : State) : exec .ecbEnc s = .next (issued (ecbEncCommand Config.E) s) := rfl

theorem exec_ecbDec (s : State) : exec .ecbDec s = .next (issued (ecbDecCommand Config.D) s) := rfl

theorem exec_cbcEnc (s : State) : exec .cbcEnc s = .next (issued (cbcEncCommand Config.E) s) := rfl

theorem exec_cbcDec (s : State) : exec .cbcDec s = .next (issued (cbcDecCommand Config.D) s) := rfl

/-- Without room for the padding an encrypt command raises `Capacity` (R122, R130). -/
theorem exec_encrypt_of_not_fits {i : Instr} (hi : i = .ecbEnc ∨ i = .cbcEnc) (hs : s.accepts) (hfit : ¬ s.fits 16) :
    exec i s = .next (s.raiseFault .capacity) := by
  rcases hi with rfl | rfl
  · rw [exec_ecbEnc, issued_of_accepts hs, ecbEncCommand, paddedThen_of_not_fits _ hfit]
  · rw [exec_cbcEnc, issued_of_accepts hs, cbcEncCommand, paddedThen_of_not_fits _ hfit]

/-- A decrypt command raises `InvalidLength` on a length that is no non-zero multiple of 16 (R126). -/
theorem exec_decrypt_of_not_wholeBlocks {i : Instr} (hi : i = .ecbDec ∨ i = .cbcDec) (hs : s.accepts)
    (hwhole : ¬ s.wholeBlocks) : exec i s = .next (s.raiseFault .invalidLength) := by
  rcases hi with rfl | rfl
  · rw [exec_ecbDec, issued_of_accepts hs, ecbDecCommand, alignedThen_of_not_wholeBlocks _ hwhole]
  · rw [exec_cbcDec, issued_of_accepts hs, cbcDecCommand, alignedThen_of_not_wholeBlocks _ hwhole]

theorem exec_encrypted {i : Instr} (hi : i = .ecbEnc ∨ i = .cbcEnc) (hs : s.accepts) (hfit : s.fits 16) :
    ∃ out t, exec i s = .next t ∧ Encrypted s out t := by
  rcases hi with rfl | rfl
  · exact ⟨_, _, exec_ecbEnc s, ecbEnc_encrypted Config.E hs hfit⟩
  · exact ⟨_, _, exec_cbcEnc s, cbcEnc_encrypted Config.E hs hfit⟩

theorem exec_decrypted {i : Instr} (hi : i = .ecbDec ∨ i = .cbcDec) (hs : s.accepts) (hwhole : s.wholeBlocks) :
    ∃ out t, exec i s = .next t ∧ Decrypted s out t := by
  rcases hi with rfl | rfl
  · exact ⟨_, _, exec_ecbDec s, ecbDec_decrypted Config.D hs hwhole⟩
  · exact ⟨_, _, exec_cbcDec s, cbcDec_decrypted Config.D hs hwhole⟩

end

/-! ### The four commands in full -/

/-- Settles O26: `Pad(16)` and then each block of the padded message on its own. -/
theorem ecbEncEncryptsEachBlock : Obligations.EcbEncEncryptsEachBlock := by
  unfold Obligations.EcbEncEncryptsEachBlock
  intro s hs
  refine ⟨hostWrite_encode .ecbEnc s, exec_encrypt_of_not_fits (.inl rfl) hs, fun hfit => ?_⟩
  have h := ecbEnc_encrypted Config.E hs hfit
  exact ⟨_, exec_ecbEnc s, h.isOk, h.len, h.result, h.operands, h.readBuf⟩

/-- Settles O28: `Pad(16)` and then the chain from `IV`. -/
theorem cbcEncEncryptsInAChain : Obligations.CbcEncEncryptsInAChain := by
  unfold Obligations.CbcEncEncryptsInAChain
  intro s hs
  refine ⟨hostWrite_encode .cbcEnc s, exec_encrypt_of_not_fits (.inr rfl) hs, fun hfit => ?_⟩
  have h := cbcEnc_encrypted Config.E hs hfit
  exact ⟨_, exec_cbcEnc s, h.isOk, h.len, h.result, h.operands, h.readBuf⟩

/-- Settles O27: the length test, each block on its own, then `Strip(16)`. -/
theorem ecbDecDecryptsEachBlock : Obligations.EcbDecDecryptsEachBlock := by
  unfold Obligations.EcbDecDecryptsEachBlock
  intro s hs
  refine ⟨hostWrite_encode .ecbDec s, exec_decrypt_of_not_wholeBlocks (.inl rfl) hs, fun hwhole => ?_⟩
  have h := ecbDec_decrypted Config.D hs hwhole
  exact ⟨_, exec_ecbDec s, h.isOk, h.result, h.operands, h.readBuf, h.stripped, h.unstripped⟩

/-- Settles O29: the length test, the chain from `IV` over the old ciphertext, then `Strip(16)`. -/
theorem cbcDecDecryptsInAChain : Obligations.CbcDecDecryptsInAChain := by
  unfold Obligations.CbcDecDecryptsInAChain
  intro s hs
  refine ⟨hostWrite_encode .cbcDec s, exec_decrypt_of_not_wholeBlocks (.inr rfl) hs, fun hwhole => ?_⟩
  have h := cbcDec_decrypted Config.D hs hwhole
  exact ⟨_, exec_cbcDec s, h.isOk, h.result, h.operands, h.readBuf, h.stripped, h.unstripped⟩

/-! ### Which outcomes a command has -/

/-- What an accepted decrypt command comes to: `InvalidLength` or `OK` (R126, R137). -/
theorem decrypt_outcome {i : Instr} {s t : State} (hi : i = .ecbDec ∨ i = .cbcDec) (hs : s.accepts)
    (h : exec i s = .next t) :
    (¬ s.wholeBlocks ∧ t = s.raiseFault .invalidLength) ∨ (s.wholeBlocks ∧ t.isOk) := by
  by_cases hwhole : s.wholeBlocks
  · obtain ⟨out, u, hu, hdec⟩ := exec_decrypted hi hs hwhole
    cases h.symm.trans hu
    exact .inr ⟨hwhole, hdec.isOk⟩
  · cases h.symm.trans (exec_decrypt_of_not_wholeBlocks hi hs hwhole)
    exact .inl ⟨hwhole, rfl⟩

/-- What an accepted encrypt command comes to: `Capacity` or `OK` (R122, R130). -/
theorem encrypt_outcome {i : Instr} {s t : State} (hi : i = .ecbEnc ∨ i = .cbcEnc) (hs : s.accepts)
    (h : exec i s = .next t) : (¬ s.fits 16 ∧ t = s.raiseFault .capacity) ∨ (s.fits 16 ∧ t.isOk) := by
  by_cases hfit : s.fits 16
  · obtain ⟨out, u, hu, henc⟩ := exec_encrypted hi hs hfit
    cases h.symm.trans hu
    exact .inr ⟨hfit, henc.isOk⟩
  · cases h.symm.trans (exec_encrypt_of_not_fits hi hs hfit)
    exact .inl ⟨hfit, rfl⟩

/-- What an accepted command of the codec comes to: `InvalidBlockSize`, PAD's `Capacity`, VALIDATE's `InvalidPadding`, or
`OK` (`40_padding_codec.md` R103, R108, R112). -/
theorem codec_outcome {i : Instr} {s t : State} (hi : i = .pad ∨ i = .strip ∨ i = .validate) (hs : s.accepts)
    (h : exec i s = .next t) :
    (s.bs = 0 ∧ t = s.raiseFault .invalidBlockSize) ∨
    (i = .pad ∧ ¬ s.fits s.bs.toNat ∧ t = s.raiseFault .capacity) ∨
    (i = .validate ∧ (¬ ∃ p, ValidPadding s.bs.toNat s.len.toNat s.readBuf p) ∧ t = s.finish .invalidPadding) ∨
    (s.bs ≠ 0 ∧ t.isOk) := by
  by_cases hbs : s.bs = 0
  · have hzero : exec i s = .next (s.raiseFault .invalidBlockSize) := by
      rcases hi with rfl | rfl | rfl
      exacts [exec_of_bs_zero (exec_pad s) hs hbs, exec_of_bs_zero (exec_strip s) hs hbs,
        exec_of_bs_zero (exec_validate s) hs hbs]
    cases h.symm.trans hzero
    exact .inl ⟨hbs, rfl⟩
  rcases hi with rfl | rfl | rfl
  · by_cases hfit : s.fits s.bs.toNat
    · cases h.symm.trans (exec_pad_of_fits hs hbs hfit)
      exact .inr (.inr (.inr ⟨hbs, State.afterPad_isOk hs⟩))
    · cases h.symm.trans (exec_pad_of_not_fits hs hbs hfit)
      exact .inr (.inl ⟨rfl, hfit, rfl⟩)
  · obtain ⟨n, hn⟩ := exec_strip_eq_cutTo hs hbs
    cases h.symm.trans hn
    exact .inr (.inr (.inr ⟨hbs, State.cutTo_isOk hs n⟩))
  · by_cases hvalid : ∃ p, ValidPadding s.bs.toNat s.len.toNat s.readBuf p
    · obtain ⟨p, hp⟩ := hvalid
      cases h.symm.trans (exec_of_validPadding (.inl rfl) hs hbs hp)
      exact .inr (.inr (.inr ⟨hbs, State.cutTo_isOk hs _⟩))
    · cases h.symm.trans (exec_validate_of_not_validPadding hs hbs hvalid)
      exact .inr (.inr (.inl ⟨rfl, hvalid, rfl⟩))

theorem State.isOk.code_ne {t : State} (h : t.isOk) {c : BitVec 4} (hc : c ≠ 0) : t.code ≠ c :=
  fun he => hc (he.symm.trans h.2)

/-- An accepted command other than the two decrypt commands does not end with the code of `InvalidLength`. -/
theorem code_ne_invalidLength {i : Instr} {s t : State} (hi : ¬ (i = .ecbDec ∨ i = .cbcDec)) (hs : s.accepts)
    (h : exec i s = .next t) : t.code ≠ FaultCode.invalidLength.bits := by
  have hcodec (hi : i = .pad ∨ i = .strip ∨ i = .validate) : t.code ≠ FaultCode.invalidLength.bits := by
    rcases codec_outcome hi hs h with ⟨-, rfl⟩ | ⟨-, -, rfl⟩ | ⟨-, -, rfl⟩ | ⟨-, hok⟩
    exacts [nofun, nofun, nofun, hok.code_ne nofun]
  have hencrypt (hi : i = .ecbEnc ∨ i = .cbcEnc) : t.code ≠ FaultCode.invalidLength.bits := by
    rcases encrypt_outcome hi hs h with ⟨-, rfl⟩ | ⟨-, hok⟩
    exacts [nofun, hok.code_ne nofun]
  cases i with
  | pad => exact hcodec (.inl rfl)
  | strip => exact hcodec (.inr (.inl rfl))
  | validate => exact hcodec (.inr (.inr rfl))
  | ecbEnc => exact hencrypt (.inl rfl)
  | cbcEnc => exact hencrypt (.inr rfl)
  | ecbDec => exact absurd (.inl rfl) hi
  | cbcDec => exact absurd (.inr rfl) hi
  | clr =>
    rw [exec_clr] at h
    cases h
    nofun

/-- Settles O12: the decrypt commands test `LEN`, and no other command ends with this code. -/
theorem invalidLengthIsTheDecryptPrecondition : Obligations.InvalidLengthIsTheDecryptPrecondition := by
  unfold Obligations.InvalidLengthIsTheDecryptPrecondition
  intro s hs
  refine ⟨fun hwhole => ⟨exec_decrypt_of_not_wholeBlocks (.inl rfl) hs hwhole,
    exec_decrypt_of_not_wholeBlocks (.inr rfl) hs hwhole⟩, fun i t h hcode => ?_⟩
  by_cases hi : i = .ecbDec ∨ i = .cbcDec
  · rcases decrypt_outcome hi hs h with ⟨hwhole, -⟩ | ⟨-, hok⟩
    · exact ⟨hi, hwhole⟩
    · exact absurd hcode (hok.code_ne nofun)
  · exact absurd hcode (code_ne_invalidLength hi hs h)

/-- Settles O31: a decrypt command that completes is `Decrypted`, and the one that faults has the code of `InvalidLength`. -/
theorem decryptStripsWithoutASignal : Obligations.DecryptStripsWithoutASignal := by
  unfold Obligations.DecryptStripsWithoutASignal
  intro i s t hi hs h
  by_cases hwhole : s.wholeBlocks
  · obtain ⟨out, u, hu, hdec⟩ := exec_decrypted hi hs hwhole
    cases h.symm.trans hu
    exact ⟨fun _ => hdec.len_cases, hdec.isOk.code_ne nofun⟩
  · cases h.symm.trans (exec_decrypt_of_not_wholeBlocks hi hs hwhole)
    exact ⟨fun hok => absurd hok.1 nofun, nofun⟩

end Sys2Proof.Machine
end

section
/-! # What the two modes do to blocks

The statements of `41_block_chaining.md` on equal blocks, round trips, flipped bits, splices and operands. Each follows from
`Encrypted` and `Decrypted` of the block chainer and a fact about the closed forms `cbcCipher` and `cbcPlain`. -/

namespace Sys2Proof.Machine

/-! ### Reading the result block by block -/

section

variable {s t u : State} {cipher plain : Nat → Block}

theorem Encrypted.accepts (h : Encrypted s cipher t) (hfit : s.fits 16) : t.accepts := by
  obtain ⟨-, -, -, hcap, -⟩ := h.operands
  refine ⟨h.isOk.1, ?_⟩
  rw [h.len, hcap]
  exact State.fits_sixteen.mp hfit

theorem Encrypted.blocks (h : Encrypted s cipher t) : t.blocks = s.paddedBlocks := by
  rw [State.blocks, h.len, Nat.mul_div_cancel_left _ (by decide)]

theorem Encrypted.wholeBlocks (h : Encrypted s cipher t) : t.wholeBlocks := by
  rw [State.wholeBlocks, h.len, State.paddedBlocks]
  omega

theorem Encrypted.readBuf_above (h : Encrypted s cipher t) {a : Nat} (ha : 16 * s.paddedBlocks ≤ a) :
    t.readBuf a = s.readBuf a := by
  rw [h.readBuf, blocksOver, if_neg (Nat.not_lt_of_le ha)]

/-- A decrypt command's message is all blocks, and has at least one (`41_block_chaining.md` R126). -/
theorem State.wholeBlocks.blocks (h : s.wholeBlocks) : 16 * s.blocks = s.len.toNat ∧ 0 < s.blocks := by
  obtain ⟨hpos, hmod⟩ := h
  rw [State.blocks]
  omega

/-- The padding leaves the blocks that lie inside the message as they are. -/
theorem State.paddedBlock_of_lt {i : Nat} (hi : i < s.blocks) : s.paddedBlock i = s.readBlock i := by
  rw [State.blocks] at hi
  refine Block.ext_get fun j hj => ?_
  rw [← State.padded_readBlock, State.readBlock_get _ _ _ hj, State.readBlock_get _ _ _ hj,
    State.padded_readBuf_of_lt (by omega)]

/-- The padded message, put together from its blocks. -/
theorem State.blocksOver_paddedBlock (s : State) (a : Nat) :
    blocksOver s.paddedBlocks s.paddedBlock s.readBuf a = s.paddedByte 16 a := by
  unfold blocksOver
  split
  · rw [State.paddedBlock, Vector.getElem_ofFn]
    exact congrArg (s.paddedByte 16) (Nat.div_add_mod a 16)
  · rw [s.paddedByte_above (by omega)]

end

/-! ### ECB on equal and on different blocks -/

/-- Under `PrimInverse` different blocks have different encryptions. -/
theorem PrimInverse.injective {E D : Prim} (h : PrimInverse E D) (key : Block) : Function.Injective (E key) :=
  Function.LeftInverse.injective (h key)

theorem ecbEnc_readBlock (E : Prim) {s : State} (hs : s.accepts) (hfit : s.fits 16) {i : Nat}
    (hi : i < s.paddedBlocks) : (issued (ecbEncCommand E) s).readBlock i = E s.key (s.paddedBlock i) :=
  (ecbEnc_encrypted E hs hfit).readBlock hi

/-- Settles O30: a ciphertext block of ECB is a function of its plaintext block, under `PrimInverse` an injective one. -/
theorem ecbMapsEqualBlocksToEqualBlocks : Obligations.EcbMapsEqualBlocksToEqualBlocks := by
  unfold Obligations.EcbMapsEqualBlocksToEqualBlocks
  refine ⟨fun E s t hs ht hfits hfitt hkey i hi j hj => ?_, exec_ecbEnc⟩
  rw [ecbEnc_readBlock E hs hfits hi, ecbEnc_readBlock E ht hfitt hj, ← hkey]
  exact ⟨congrArg _, fun D hinv => (hinv.injective s.key).ne⟩

/-- Settles O34: ECB_DEC decrypts each block on its own, wherever its ciphertext comes from. -/
theorem ecbBlocksSplice : Obligations.EcbBlocksSplice := by
  unfold Obligations.EcbBlocksSplice
  intro E D hinv s origin place hs hwhole horigin
  have h := ecbDec_decrypted D hs hwhole
  refine ⟨h.isOk, fun i hi => ?_, h.stripped, h.unstripped⟩
  obtain ⟨ho, hfit, hkey, hplace, hblock⟩ := horigin i hi
  rw [h.readBlock hi, hblock, ecbEnc_readBlock E ho hfit hplace, hkey, hinv]

/-! ### The round trip -/

/-- CBC decryption undoes CBC encryption block by block (`41_block_chaining.md` R138). -/
theorem cbcPlain_cbcCipher {e d : Block → Block} (h : ∀ b, d (e b) = b) (iv : Block) (plain : Nat → Block) (i : Nat) :
    cbcPlain d iv (cbcCipher e iv plain) i = plain i := by
  cases i with
  | zero => rw [cbcPlain, cbcCipher_zero, chained_zero, h, xorBlock_xorBlock]
  | succ i => rw [cbcPlain, cbcCipher_succ, chained_succ, h, xorBlock_xorBlock]

/-- `u` holds the message of `s` again, with the pad bytes above it and `STATUS` at `OK` (R138). -/
structure Restored (s u : State) : Prop where
  isOk : u.isOk
  len : u.len = s.len
  readBuf : ∀ a, u.readBuf a = s.paddedByte 16 a

section

variable {s t u : State} {cipher plain : Nat → Block}

/-- Where decryption gives back the padded blocks, `Strip(16)` takes off just what `Pad(16)` appended. -/
theorem Decrypted.restored (hfit : s.fits 16) (henc : Encrypted s cipher t) (hdec : Decrypted t plain u)
    (hplain : ∀ i < s.paddedBlocks, plain i = s.paddedBlock i) : Restored s u := by
  have hread (a : Nat) : u.readBuf a = s.paddedByte 16 a := by
    rw [hdec.readBuf, henc.blocks, ← s.blocksOver_paddedBlock]
    exact blocksOver_congr hplain henc.readBuf_above
  have hlen : t.len.toNat = s.len.toNat + padLength 16 s.len.toNat :=
    henc.len.trans (add_padLength _ (by decide)).symm
  have hvalid : ValidPadding 16 t.len.toNat u.readBuf (padLength 16 s.len.toNat) := by
    have hpadded := State.padded_validPadding (s := s) (bs := 16) (by decide) (by decide) hfit
    rwa [State.padded_len hfit, ← hlen, show (s.padded 16).readBuf = u.readBuf from
      funext fun a => (s.padded_readBuf 16 a).trans (hread a).symm] at hpadded
  refine ⟨hdec.isOk, BitVec.eq_of_toNat_eq ?_, hread⟩
  rw [hdec.stripped _ hvalid, hlen, Nat.add_sub_cancel]

theorem ecb_restored {E D : Prim} (hinv : PrimInverse E D) (hs : s.accepts) (hfit : s.fits 16) :
    Restored s (issued (ecbDecCommand D) (issued (ecbEncCommand E) s)) := by
  have henc := ecbEnc_encrypted E hs hfit
  obtain ⟨hkey, -⟩ := henc.operands
  refine (ecbDec_decrypted D (henc.accepts hfit) henc.wholeBlocks).restored hfit henc fun i hi => ?_
  rw [henc.readBlock hi, hkey, hinv]

theorem cbc_restored {E D : Prim} (hinv : PrimInverse E D) (hs : s.accepts) (hfit : s.fits 16) :
    Restored s (issued (cbcDecCommand D) (issued (cbcEncCommand E) s)) := by
  have henc := cbcEnc_encrypted E hs hfit
  obtain ⟨hkey, hiv, -⟩ := henc.operands
  refine (cbcDec_decrypted D (henc.accepts hfit) henc.wholeBlocks).restored hfit henc fun i hi => ?_
  rw [cbcPlain_causal _ _ fun j hj => henc.readBlock (Nat.lt_of_le_of_lt hj hi), hkey, hiv,
    cbcPlain_cbcCipher (hinv s.key)]

theorem Restored.message (h : Restored s u) : u.message = s.message := by
  rw [State.message, State.message, h.len, State.readBytes, State.readBytes]
  refine List.map_congr_left fun j hj => ?_
  rw [Nat.zero_add, h.readBuf, ← State.padded_readBuf, State.padded_readBuf_of_lt (List.mem_range.mp hj)]

theorem Restored.statusByte (h : Restored s u) : statusByte u = 0x00 := by
  refine BitVec.eq_of_toNat_eq ?_
  rw [statusByte_of_running h.isOk.1, h.isOk.2]
  rfl

theorem Restored.readBuf_pad (h : Restored s u) {a : Nat} (hlo : s.len.toNat ≤ a) (hhi : a < 16 * s.paddedBlocks) :
    u.readBuf a = BitVec.ofNat 8 (padLength 16 s.len.toNat) := by
  have hlen := add_padLength s.len.toNat (bs := 16) (by decide)
  rw [h.readBuf, State.paddedByte, if_pos ⟨hlo, hhi.trans_eq hlen.symm⟩]

theorem Restored.readBuf_above (h : Restored s u) {a : Nat} (ha : 16 * s.paddedBlocks ≤ a) :
    u.readBuf a = s.readBuf a := by
  rw [h.readBuf, s.paddedByte_above ha]

end

/-- Settles O32: the plaintext blocks come back, and with them valid padding for `Strip(16)` to take off. -/
theorem decryptUndoesEncrypt : Obligations.DecryptUndoesEncrypt := by
  unfold Obligations.DecryptUndoesEncrypt
  refine ⟨fun E D hinv s hf hroom u hu => ?_, fun s => ⟨exec_ecbEnc s, exec_ecbDec s, exec_cbcEnc s, exec_cbcDec s⟩⟩
  have hfit : s.fits 16 := State.fits_sixteen.mpr hroom
  have hs : s.accepts := ⟨hf, by omega⟩
  have h : Restored s u := by
    rcases hu with rfl | rfl
    · exact ecb_restored hinv hs hfit
    · exact cbc_restored hinv hs hfit
  exact ⟨h.len, h.message, h.statusByte, fun _ => h.readBuf_pad, fun _ => h.readBuf_above⟩

/-! ### A mask in the ciphertext -/

theorem xorBlock_assoc (a b c : Block) : xorBlock (xorBlock a b) c = xorBlock a (xorBlock b c) := by
  ext j hj
  simp [xorBlock, BitVec.xor_assoc]

theorem xorBlock_zero (a : Block) : xorBlock a (Vector.replicate 16 0x00) = a := by
  ext j hj
  simp [xorBlock]

/-- A changed ciphertext block is not what any block but the next is chained with. -/
theorem chained_writeBlock (s : State) (iv b : Block) {i k : Nat} (h : k ≠ i + 1) :
    chained iv (s.writeBlock i b).readBlock k = chained iv s.readBlock k := by
  cases k with
  | zero => rfl
  | succ k => exact State.readBlock_writeBlock_ne s (by omega) b

theorem cbcDec_readBlock (D : Prim) {s : State} (hs : s.accepts) (hwhole : s.wholeBlocks) {i : Nat}
    (hi : i < s.blocks) :
    (issued (cbcDecCommand D) s).readBlock i = xorBlock (D s.key (s.readBlock i)) (chained s.iv s.readBlock i) :=
  (cbcDec_decrypted D hs hwhole).readBlock hi

/-- Writing a block changes neither `LEN` nor the operand registers, so that CBC_DEC decrypts the changed ciphertext. -/
theorem cbcDec_readBlock_writeBlock (D : Prim) {s : State} (hs : s.accepts) (hwhole : s.wholeBlocks) (k : Nat)
    (b : Block) {i : Nat} (hi : i < s.blocks) :
    (issued (cbcDecCommand D) (s.writeBlock k b)).readBlock i =
      xorBlock (D s.key ((s.writeBlock k b).readBlock i)) (chained s.iv (s.writeBlock k b).readBlock i) :=
  cbcDec_readBlock D ((s.accepts_writeBlock k b).mpr hs) hwhole hi

/-- A change of `IV` changes what block 0 is chained with and no ciphertext block. -/
theorem cbcDec_readBlock_withIv (D : Prim) {s : State} (hs : s.accepts) (hwhole : s.wholeBlocks) (iv : Block) {i : Nat}
    (hi : i < s.blocks) :
    (issued (cbcDecCommand D) { s with iv := iv }).readBlock i =
      xorBlock (D s.key (s.readBlock i)) (chained iv s.readBlock i) :=
  cbcDec_readBlock D (s := { s with iv := iv }) hs hwhole hi

/-- Settles O33: block `k` of CBC_DEC reads ciphertext block `k` and what block `k` is chained with. -/
theorem cbcBitFlip : Obligations.CbcBitFlip := by
  unfold Obligations.CbcBitFlip
  intro s t m hs hwhole ht
  cases (exec_cbcDec s).symm.trans ht
  refine ⟨fun i hi1 hi => ⟨_, exec_cbcDec _, ?_⟩, ⟨_, exec_cbcDec _, ?_⟩⟩
  · obtain ⟨k, rfl⟩ : ∃ k, i = k + 1 := ⟨i - 1, by omega⟩
    rw [Nat.add_sub_cancel]
    refine ⟨?_, ?_, fun j hj hji hjk => ?_⟩
    · rw [cbcDec_readBlock_writeBlock _ hs hwhole _ _ hi, cbcDec_readBlock _ hs hwhole hi, chained_succ, chained_succ,
        xorBlock_assoc, State.readBlock_writeBlock_self, State.readBlock_writeBlock_ne s k.succ_ne_self]
    · rw [cbcDec_readBlock_writeBlock _ hs hwhole _ _ (Nat.lt_of_succ_lt hi), State.readBlock_writeBlock_self,
        chained_writeBlock s _ _ k.succ_ne_self.symm]
    · rw [cbcDec_readBlock_writeBlock _ hs hwhole _ _ hj, cbcDec_readBlock _ hs hwhole hj,
        State.readBlock_writeBlock_ne s hjk, chained_writeBlock s _ _ hji]
  · obtain ⟨-, hpos⟩ := hwhole.blocks
    refine ⟨?_, fun k hk hk0 => ?_⟩
    · rw [cbcDec_readBlock_withIv _ hs hwhole _ hpos, cbcDec_readBlock _ hs hwhole hpos, chained_zero, chained_zero,
        xorBlock_assoc]
    · obtain ⟨j, rfl⟩ := Nat.exists_eq_succ_of_ne_zero hk0
      rw [cbcDec_readBlock_withIv _ hs hwhole _ hk, cbcDec_readBlock _ hs hwhole hk, chained_succ, chained_succ]

/-! ### Where the chain starts -/

/-- Settles O37: neither command writes `IV`, and each takes its first block from the result of `Pad(16)`. -/
theorem cbcCommandsEachStartFromIv : Obligations.CbcCommandsEachStartFromIv := by
  unfold Obligations.CbcCommandsEachStartFromIv
  intro s hf hroom
  have hs : s.accepts := ⟨hf, by omega⟩
  have hfit : s.fits 16 := State.fits_sixteen.mpr (by rw [State.paddedBlocks]; omega)
  have ht := cbcEnc_encrypted Config.E hs hfit
  refine ⟨_, _, exec_cbcEnc s, exec_cbcEnc _, ?_⟩
  generalize issued (cbcEncCommand Config.E) s = t at ht ⊢
  obtain ⟨hkey, hiv, -, hcap, -⟩ := ht.operands
  have hblocks := ht.blocks
  have hfit' : t.fits 16 := by
    rw [State.fits_sixteen, hcap]
    simp only [State.paddedBlocks, State.blocks] at hblocks ⊢
    omega
  have hu := cbcEnc_encrypted Config.E (ht.accepts hfit) hfit'
  obtain ⟨-, hiv', -⟩ := hu.operands
  refine ⟨hiv, hiv'.trans hiv, ht.readBlock (Nat.succ_pos _), ?_⟩
  rw [hu.readBlock (Nat.succ_pos _), cbcCipher_zero, State.paddedBlock_of_lt (hblocks ▸ Nat.succ_pos _), hkey, hiv]

/-- Settles O38: exclusive-or with the zero block changes nothing. -/
theorem cbcWithZeroIvStartsAsEcb : Obligations.CbcWithZeroIvStartsAsEcb := by
  unfold Obligations.CbcWithZeroIvStartsAsEcb
  intro s hs hfit hiv
  refine ⟨_, _, exec_cbcEnc s, exec_ecbEnc s, ?_⟩
  rw [(cbcEnc_encrypted Config.E hs hfit).readBlock (Nat.succ_pos _), ecbEnc_readBlock Config.E hs hfit (Nat.succ_pos _),
    cbcCipher_zero, hiv, xorBlock_zero]

end Sys2Proof.Machine
end

section
/-! # The operands of the chainer commands

The chainer commands read `KEY`, `LEN`, `CAP`, the message and, in CBC, `IV` (`41_block_chaining.md` R141). Two states that
agree on these (`ChainerAgree`) make the same tests at issue and in the two frames, and where both complete, their `Encrypted`
or `Decrypted` blocks are the same. -/

namespace Sys2Proof.Machine

/-- The two states have no fault latched and the same operands of the ECB commands. -/
structure ChainerAgree (s t : State) : Prop where
  running : s.fault = false ∧ t.fault = false
  key : s.key = t.key
  len : s.len = t.len
  cap : s.cap = t.cap
  message : ∀ a < s.len.toNat, s.readBuf a = t.readBuf a

/-- The same `STATUS` and `LEN`, and the same bytes of the message as it is and as it was with `n` bytes. -/
structure ChainerOutcomeAgree (n : Nat) (s t : State) : Prop where
  fault : s.fault = t.fault
  code : s.code = t.code
  len : s.len = t.len
  message : ∀ a, a < s.len.toNat ∨ a < n → s.readBuf a = t.readBuf a

section

variable {s t s' t' : State} {out out' : Nat → Block}

theorem Encrypted.agree (hs : Encrypted s out s') (ht : Encrypted t out' t') (hlen : s.len = t.len)
    (hout : ∀ i < s.paddedBlocks, out i = out' i) : ChainerOutcomeAgree s.len.toNat s' t' where
  fault := hs.isOk.1.trans ht.isOk.1.symm
  code := hs.isOk.2.trans ht.isOk.2.symm
  len := BitVec.eq_of_toNat_eq (by rw [hs.len, ht.len, State.paddedBlocks, State.paddedBlocks, hlen])
  message a ha := by
    have hblocks : s.paddedBlocks = t.paddedBlocks := by rw [State.paddedBlocks, State.paddedBlocks, hlen]
    rw [hs.len, State.paddedBlocks] at ha
    rw [hs.readBuf, ht.readBuf, ← hblocks]
    exact blocksOver_congr hout fun habove => by rw [State.paddedBlocks] at habove; omega

/-- Valid padding is a matter of the bytes of the message. -/
theorem ValidPadding.congr {bs n p : Nat} {f g : Nat → Byte} (hfg : ∀ a < n, f a = g a) (h : ValidPadding bs n f p) :
    ValidPadding bs n g p := by
  obtain ⟨hpos, hmod, hp1, hple, hbytes⟩ := h
  refine ⟨hpos, hmod, hp1, hple, fun j hj => ?_⟩
  rw [← hfg _ (by omega)]
  exact hbytes j hj

theorem Decrypted.agree (hs : Decrypted s out s') (ht : Decrypted t out' t') (hwhole : s.wholeBlocks)
    (hlen : s.len = t.len) (hout : ∀ i < s.blocks, out i = out' i) : ChainerOutcomeAgree s.len.toNat s' t' := by
  obtain ⟨hwide, -⟩ := hwhole.blocks
  have hblocks : s.blocks = t.blocks := by rw [State.blocks, State.blocks, hlen]
  have hmessage : ∀ a < s.len.toNat, s'.readBuf a = t'.readBuf a := fun a ha => by
    rw [hs.readBuf, ht.readBuf, ← hblocks]
    exact blocksOver_congr hout fun habove => by omega
  refine ⟨hs.isOk.1.trans ht.isOk.1.symm, hs.isOk.2.trans ht.isOk.2.symm, ?_, fun a ha => hmessage a ?_⟩
  · by_cases hvalid : ∃ p, ValidPadding 16 s.len.toNat s'.readBuf p
    · obtain ⟨p, hp⟩ := hvalid
      have hp' := hp.congr hmessage
      rw [hlen] at hp'
      exact BitVec.eq_of_toNat_eq (by rw [hs.stripped p hp, ht.stripped p hp', hlen])
    · rw [hs.unstripped hvalid, ht.unstripped, hlen]
      rintro ⟨p, hp⟩
      rw [← hlen] at hp
      exact hvalid ⟨p, hp.congr fun a ha => (hmessage a ha).symm⟩
  · rcases hs.len_cases with he | ⟨p, -, -, hp⟩
    · rw [he] at ha
      omega
    · omega

end

namespace ChainerAgree

variable {s t : State}

/-- The chainer does not read `BS`, so the operands of the codec agree but for it. -/
theorem codecAgree (h : ChainerAgree s t) : CodecAgree s { t with bs := s.bs } :=
  ⟨h.running, rfl, h.len, h.cap, h.message⟩

theorem paddedBlock_eq (h : ChainerAgree s t) {i : Nat} (hi : i < s.paddedBlocks) :
    s.paddedBlock i = t.paddedBlock i := by
  have hlen := add_padLength s.len.toNat (bs := 16) (by decide)
  rw [State.paddedBlocks] at hi
  refine Block.ext_get fun j hj => ?_
  rw [State.paddedBlock, State.paddedBlock, Vector.getElem_ofFn, Vector.getElem_ofFn]
  exact h.codecAgree.paddedByte_eq 16 (by rw [hlen]; omega)

theorem readBlock_eq (h : ChainerAgree s t) {i : Nat} (hi : i < s.blocks) : s.readBlock i = t.readBlock i := by
  rw [State.blocks] at hi
  refine Block.ext_get fun j hj => ?_
  rw [State.readBlock_get _ _ _ hj, State.readBlock_get _ _ _ hj, h.message _ (by omega)]

theorem raiseFault (h : ChainerAgree s t) (c : FaultCode) :
    ChainerOutcomeAgree s.len.toNat (s.raiseFault c) (t.raiseFault c) :=
  ⟨rfl, rfl, h.len, fun a ha => h.message a (ha.elim id id)⟩

/-- The tests at issue (`30_encoding.md` R90). -/
theorem issued_agree (h : ChainerAgree s t) {command : State → State}
    (hcommand : s.accepts → t.accepts →
      ChainerOutcomeAgree s.len.toNat (issued command s) (issued command t)) :
    ChainerOutcomeAgree s.len.toNat (issued command s) (issued command t) := by
  obtain ⟨hs, ht⟩ := h.running
  by_cases hcap : s.len.toNat ≤ s.cap.val
  · exact hcommand ⟨hs, hcap⟩ ⟨ht, by rwa [← h.cap, ← h.len]⟩
  · have hcap' : t.cap.val < t.len.toNat := by rw [← h.cap, ← h.len]; omega
    rw [issued_of_cap_lt hs (Nat.lt_of_not_le hcap), issued_of_cap_lt ht hcap']
    exact h.raiseFault .capacity

variable {loop : State → State} {out : BlockMap}

/-- The encrypt commands (R122, R130), where the two states give the loop the same `KEY` and start of `CHAIN`. -/
theorem paddedThen_agree (h : ChainerAgree s t) (hloop : IsBlockLoop loop out)
    (hout : out s.key s.iv = out t.key t.iv) :
    ChainerOutcomeAgree s.len.toNat (issued (paddedThen loop) s) (issued (paddedThen loop) t) := by
  refine h.issued_agree fun hs ht => ?_
  have hfit_iff : s.fits 16 ↔ t.fits 16 := by rw [State.fits, State.fits, h.len, h.cap]
  by_cases hfit : s.fits 16
  · refine (encrypted_of_fits hloop hs hfit).agree (encrypted_of_fits hloop ht (hfit_iff.mp hfit)) h.len fun i hi => ?_
    rw [← hout]
    exact hloop.causal _ _ fun j hj => h.paddedBlock_eq (Nat.lt_of_le_of_lt hj hi)
  · rw [issued_of_accepts hs, issued_of_accepts ht, paddedThen_of_not_fits loop hfit,
      paddedThen_of_not_fits loop (mt hfit_iff.mpr hfit)]
    exact h.raiseFault .capacity

/-- The decrypt commands (R124, R134), where the two states give the loop the same `KEY` and start of `CHAIN`. -/
theorem alignedThen_agree (h : ChainerAgree s t) (hloop : IsBlockLoop loop out)
    (hout : out s.key s.iv = out t.key t.iv) :
    ChainerOutcomeAgree s.len.toNat (issued (alignedThen loop) s) (issued (alignedThen loop) t) := by
  refine h.issued_agree fun hs ht => ?_
  have hwhole_iff : s.wholeBlocks ↔ t.wholeBlocks := by rw [State.wholeBlocks, State.wholeBlocks, h.len]
  by_cases hwhole : s.wholeBlocks
  · refine (decrypted_of_wholeBlocks hloop hs hwhole).agree
      (decrypted_of_wholeBlocks hloop ht (hwhole_iff.mp hwhole)) hwhole h.len fun i hi => ?_
    rw [← hout]
    exact hloop.causal _ _ fun j hj => h.readBlock_eq (Nat.lt_of_le_of_lt hj hi)
  · rw [issued_of_accepts hs, issued_of_accepts ht, alignedThen_of_not_wholeBlocks loop hwhole,
      alignedThen_of_not_wholeBlocks loop (mt hwhole_iff.mpr hwhole)]
    exact h.raiseFault .invalidLength

/-- The ECB commands do not read `IV` (R141). -/
theorem ecbMap_eq (h : ChainerAgree s t) (f : Prim) : ecbMap f s.key s.iv = ecbMap f t.key t.iv := by
  rw [h.key]
  rfl

end ChainerAgree

/-- Settles O35: each command gives the two states outcomes that agree, and it writes none of its operand registers. -/
theorem chainerReadsOnlyItsOperands : Obligations.ChainerReadsOnlyItsOperands := by
  unfold Obligations.ChainerReadsOnlyItsOperands
  intro i s t hi hs ht hkey hlen hcap hiv hmessage
  have h : ChainerAgree s t := ⟨⟨hs, ht⟩, hkey, hlen, hcap, hmessage⟩
  have hrule : ChainerOutcomeAgree s.len.toNat (issued (commandRule i) s) (issued (commandRule i) t) := by
    rcases hi with rfl | rfl | rfl | rfl
    · exact h.paddedThen_agree (ecbLoop_isBlockLoop Config.E) (h.ecbMap_eq Config.E)
    · exact h.alignedThen_agree (ecbLoop_isBlockLoop Config.D) (h.ecbMap_eq Config.D)
    · have hiv : s.iv = t.iv := hiv.resolve_right (by decide)
      exact h.paddedThen_agree (cbcEncLoop_isBlockLoop Config.E) (by rw [hkey, hiv])
    · have hiv : s.iv = t.iv := hiv.resolve_right (by decide)
      exact h.alignedThen_agree (cbcDecLoop_isBlockLoop Config.D) (by rw [hkey, hiv])
  have hclr : i ≠ .clr := by
    rcases hi with rfl | rfl | rfl | rfl <;> nofun
  have hpad : i ≠ .pad := by
    rcases hi with rfl | rfl | rfl | rfl <;> nofun
  obtain ⟨hkeys, hivs, hbss, hresult⟩ := (exec_effect hclr (exec_eq_issued hclr s)).registers
  exact ⟨_, _, exec_eq_issued hclr s, exec_eq_issued hclr t, ⟨hkeys, hivs, hbss, hresult hpad⟩, hrule.fault, hrule.code,
    hrule.len, hrule.message⟩

end Sys2Proof.Machine
end

section
/-! # Faults

Taking a fault is a change of `STATUS` alone, and no transaction but a `CMD` write looks at `STATUS.FAULT`: the other writes
pass a change of `STATUS` through (`writeReg_withStatus`), and the reads but that of `STATUS` do not see it
(`readReg_withStatus`). What a latched fault changes (`60_exceptions.md` R170) and what ends it (R171) follow. -/

namespace Sys2Proof.Machine

/-! ### Taking a fault -/

/-- `STATUS` after a fault (`60_exceptions.md` R160): bit 7 and the code. -/
theorem statusByte_raiseFault (s : State) (c : FaultCode) :
    statusByte (s.raiseFault c) = BitVec.ofNat 8 (128 + c.bits.toNat) := by
  refine BitVec.eq_of_toNat_eq ?_
  rw [statusByte_toNat]
  cases c <;> rfl

/-- Settles O6: `raiseFault` is the update of two fields, which `STATUS` shows in one byte. -/
theorem takingAFaultWritesStatusOnly : Obligations.TakingAFaultWritesStatusOnly := by
  unfold Obligations.TakingAFaultWritesStatusOnly
  exact ⟨fun _ _ => rfl, fun s => ⟨statusByte_raiseFault s .invalidLength, statusByte_raiseFault s .illegalCommand,
    statusByte_raiseFault s .invalidBlockSize, statusByte_raiseFault s .capacity⟩⟩

/-! ### A change of `STATUS` and the host's transactions -/

/-- `s` with other contents of `STATUS`. -/
def State.withStatus (s : State) (fault : Bool) (code : BitVec 4) : State := { s with fault := fault, code := code }

section

variable {s : State} {addr : Addr}

theorem State.withStatus_self (hf : s.fault = true) : s.withStatus true s.code = s := by
  rw [State.withStatus, ← hf]

theorem writeReg_withStatus (s : State) (fault : Bool) (code : BitVec 4) (v : Byte) (r : Reg) :
    writeReg (s.withStatus fault code) v r = (writeReg s v r).withStatus fault code := by
  cases r <;> rfl

theorem readReg_withStatus (s : State) (fault : Bool) (code : BitVec 4) {r : Reg} (hr : r ≠ .status) :
    readReg (s.withStatus fault code) r = readReg s r := by
  cases r with
  | status => exact absurd rfl hr
  | cmd | bs | result | lenL | lenH | capL | capH | key | iv | buf => rfl

/-- A write to an address other than `CMD`'s is a write to one register, whatever the state; at a reserved offset it is
ignored as a write to the read-only `STATUS` is (`20_memory.md` R53 to R55). -/
theorem hostWrite_eq_writeReg (cap : Cap) (haddr : addr ≠ 0) :
    ∃ r, ∀ s : State, s.cap = cap → ∀ v, hostWrite addr v s = .next (writeReg s v r) := by
  cases hr : locate cap.val addr with
  | none =>
    refine ⟨.status, fun s hcap v => ?_⟩
    rw [← hcap] at hr
    exact hostWrite_of_reserved hr v
  | some r =>
    have hcmd : r ≠ .cmd := by
      rintro rfl
      exact haddr (offset_of_locate hr).symm
    refine ⟨r, fun s hcap v => ?_⟩
    rw [← hcap] at hr
    exact hostWrite_of_locate hr hcmd v

/-- `STATUS` is no part of what a write to an address other than `CMD`'s does. -/
theorem hostWrite_withStatus (s : State) (haddr : addr ≠ 0) (v : Byte) :
    ∃ t : State, ∀ fault code, hostWrite addr v (s.withStatus fault code) = .next (t.withStatus fault code) := by
  obtain ⟨r, hr⟩ := hostWrite_eq_writeReg s.cap haddr
  refine ⟨writeReg s v r, fun fault code => ?_⟩
  rw [hr (s.withStatus fault code) rfl v, writeReg_withStatus]

/-- A read sees no more of the state than `CAP` and the register at its address (`20_memory.md` R53). -/
theorem hostRead_congr {t : State} (hcap : t.cap = s.cap)
    (h : ∀ r, locate s.cap.val addr = some r → readReg t r = readReg s r) : hostRead t addr = hostRead s addr := by
  unfold hostRead
  rw [hcap]
  cases hr : locate s.cap.val addr with
  | none => rfl
  | some r => exact h r hr

/-- `STATUS` is read at its own address only. -/
theorem hostRead_withStatus (s : State) (fault : Bool) (code : BitVec 4) (haddr : addr ≠ 0x00001) :
    hostRead (s.withStatus fault code) addr = hostRead s addr := by
  refine hostRead_congr rfl fun r hr => readReg_withStatus s fault code ?_
  rintro rfl
  exact haddr (offset_of_locate hr).symm

end

/-- A write to an address other than `CMD`'s keeps a latched fault and its code. -/
theorem hostWrite_of_fault {s : State} (hf : s.fault = true) {addr : Addr} (haddr : addr ≠ 0) (v : Byte) :
    ∃ t : State, hostWrite addr v (s.withStatus false 0) = .next t ∧
      hostWrite addr v s = .next (t.withStatus true s.code) := by
  obtain ⟨t, ht⟩ := hostWrite_withStatus s haddr v
  refine ⟨_, ht false 0, ?_⟩
  have hhalted := ht true s.code
  rwa [State.withStatus_self hf] at hhalted

/-- Settles O8: a `CMD` write stops at the latched fault, and no other transaction looks at it. -/
theorem haltedEngineIgnoresCommands : Obligations.HaltedEngineIgnoresCommands := by
  unfold Obligations.HaltedEngineIgnoresCommands
  intro s hf
  exact ⟨fun c hc => hostWrite_cmd_of_fault hf hc, fun addr v haddr => hostWrite_of_fault hf haddr v,
    fun addr haddr => (hostRead_withStatus s false 0 haddr).symm⟩

/-! ### The end of a latched fault -/

/-- CLR and the reset input are both the reset transition (`42_system.md` R150). -/
theorem hostEvent_of_clr_or_reset {e : HostEvent} (he : e = .write 0x00000 0xFF ∨ e = .reset) (s : State) :
    hostEvent e s = .next s.resetEngine := by
  rcases he with rfl | rfl
  · exact (hostWrite_encode .clr s).trans (exec_clr s)
  · rfl

/-- Any other event keeps a latched fault. -/
theorem fault_of_hostEvent {e : HostEvent} {s t : State} (hf : s.fault = true)
    (he : ¬ (e = .write 0x00000 0xFF ∨ e = .reset)) (h : hostEvent e s = .next t) : t.fault = true := by
  cases e with
  | read addr => cases h; exact hf
  | reset => exact absurd (.inr rfl) he
  | write addr v =>
    change hostWrite addr v s = .next t at h
    by_cases haddr : addr = 0
    · have hv : v ≠ 0xFF := fun hv => he (.inl (by rw [haddr, hv]))
      rw [haddr, hostWrite_cmd_of_fault hf hv] at h
      cases h
      exact hf
    · obtain ⟨u, -, hu⟩ := hostWrite_of_fault hf haddr v
      cases h.symm.trans hu
      rfl

/-- Settles O11: CLR and the reset input are the reset transition, and every other event keeps the fault. -/
theorem onlyClrAndResetLeaveAFault : Obligations.OnlyClrAndResetLeaveAFault := by
  unfold Obligations.OnlyClrAndResetLeaveAFault
  intro s t e hf h
  by_cases he : e = .write 0x00000 0xFF ∨ e = .reset
  · cases h.symm.trans (hostEvent_of_clr_or_reset he s)
    exact ⟨⟨fun _ => he, fun _ => rfl⟩, fun _ => s.resetEngine_hasResetValues⟩
  · have hkept := fault_of_hostEvent hf he h
    rw [hkept]
    exact ⟨⟨nofun, fun h => absurd h he⟩, nofun⟩

end Sys2Proof.Machine
end

section
/-! # The outcome of a command

`CommandOutcome` lists what `exec` of a command can lead to, in the order of the priority table of `60_exceptions.md` R168,
each case with the reason for it. From `exec_outcome` follow the table, the precision of faults (R169) and, for each code,
the commands and the states that it comes of (R163, R165, R167). -/

namespace Sys2Proof.Machine

/-! ### The cases of the table -/

/-- The command, once accepted, has no reason to fault (R162, R165, R167) and VALIDATE none to reject (R163). -/
def State.admits (s : State) : Instr → Prop
  | .pad => s.bs ≠ 0 ∧ s.fits s.bs.toNat
  | .strip => s.bs ≠ 0
  | .validate => s.bs ≠ 0 ∧ ∃ p, ValidPadding s.bs.toNat s.len.toNat s.readBuf p
  | .ecbEnc | .cbcEnc => s.fits 16
  | .ecbDec | .cbcDec => s.wholeBlocks
  | .clr => True

/-- What `exec` of command `i` in state `s` can lead to, and when (R168). -/
inductive CommandOutcome (i : Instr) (s : State) : State → Prop
  /-- Row 1: CLR. -/
  | cleared (clr : i = .clr) : CommandOutcome i s s.resetEngine
  /-- Row 2: a fault is latched. -/
  | ignored (other : i ≠ .clr) (halted : s.fault = true) : CommandOutcome i s s
  /-- Row 4: `LEN > CAP` at issue. -/
  | overlong (other : i ≠ .clr) (running : s.fault = false) (long : s.cap.val < s.len.toNat) :
      CommandOutcome i s (s.raiseFault .capacity)
  /-- Row 5, the codec's commands: `BS = 0`. -/
  | noBlockSize (accepted : s.accepts) (codec : i = .pad ∨ i = .strip ∨ i = .validate) (zero : s.bs = 0) :
      CommandOutcome i s (s.raiseFault .invalidBlockSize)
  /-- Row 5, the decrypt commands: `LEN` is no non-zero multiple of 16. -/
  | ragged (accepted : s.accepts) (decrypt : i = .ecbDec ∨ i = .cbcDec) (length : ¬ s.wholeBlocks) :
      CommandOutcome i s (s.raiseFault .invalidLength)
  /-- Row 6, PAD: no room for the padding. -/
  | noRoomToPad (accepted : s.accepts) (pad : i = .pad) (legal : s.bs ≠ 0) (room : ¬ s.fits s.bs.toNat) :
      CommandOutcome i s (s.raiseFault .capacity)
  /-- Row 6, the encrypt commands: no room for the padding. -/
  | noRoomToEncrypt (accepted : s.accepts) (encrypt : i = .ecbEnc ∨ i = .cbcEnc) (room : ¬ s.fits 16) :
      CommandOutcome i s (s.raiseFault .capacity)
  /-- Row 7: VALIDATE on a message without valid padding. -/
  | rejected (accepted : s.accepts) (validate : i = .validate) (legal : s.bs ≠ 0)
      (padding : ¬ ∃ p, ValidPadding s.bs.toNat s.len.toNat s.readBuf p) : CommandOutcome i s (s.finish .invalidPadding)
  /-- Row 8. -/
  | completed {t : State} (accepted : s.accepts) (admitted : s.admits i) (ok : t.isOk) : CommandOutcome i s t

section

variable {i : Instr} {s t : State}

theorem exec_codec_of_bs_zero (hi : i = .pad ∨ i = .strip ∨ i = .validate) (hs : s.accepts) (hbs : s.bs = 0) :
    exec i s = .next (s.raiseFault .invalidBlockSize) := by
  rcases hi with rfl | rfl | rfl
  exacts [exec_of_bs_zero (exec_pad s) hs hbs, exec_of_bs_zero (exec_strip s) hs hbs,
    exec_of_bs_zero (exec_validate s) hs hbs]

/-- The codec's commands behind the tests at issue. -/
theorem codec_commandOutcome (hi : i = .pad ∨ i = .strip ∨ i = .validate) (hs : s.accepts) :
    ∃ t, exec i s = .next t ∧ CommandOutcome i s t := by
  by_cases hbs : s.bs = 0
  · exact ⟨_, exec_codec_of_bs_zero hi hs hbs, .noBlockSize hs hi hbs⟩
  rcases hi with rfl | rfl | rfl
  · by_cases hfit : s.fits s.bs.toNat
    · exact ⟨_, exec_pad_of_fits hs hbs hfit, .completed hs ⟨hbs, hfit⟩ (State.afterPad_isOk hs)⟩
    · exact ⟨_, exec_pad_of_not_fits hs hbs hfit, .noRoomToPad hs rfl hbs hfit⟩
  · obtain ⟨n, hn⟩ := exec_strip_eq_cutTo hs hbs
    exact ⟨_, hn, .completed hs hbs (State.cutTo_isOk hs n)⟩
  · by_cases hvalid : ∃ p, ValidPadding s.bs.toNat s.len.toNat s.readBuf p
    · obtain ⟨p, hp⟩ := hvalid
      exact ⟨_, exec_of_validPadding (.inl rfl) hs hbs hp, .completed hs ⟨hbs, p, hp⟩ (State.cutTo_isOk hs _)⟩
    · exact ⟨_, exec_validate_of_not_validPadding hs hbs hvalid, .rejected hs rfl hbs hvalid⟩

/-- The encrypt commands behind the tests at issue. -/
theorem encrypt_commandOutcome (hi : i = .ecbEnc ∨ i = .cbcEnc) (hs : s.accepts) :
    ∃ t, exec i s = .next t ∧ CommandOutcome i s t := by
  by_cases hfit : s.fits 16
  · obtain ⟨_, t, ht, henc⟩ := exec_encrypted hi hs hfit
    have hadmits : s.admits i := by
      rcases hi with rfl | rfl <;> exact hfit
    exact ⟨t, ht, .completed hs hadmits henc.isOk⟩
  · exact ⟨_, exec_encrypt_of_not_fits hi hs hfit, .noRoomToEncrypt hs hi hfit⟩

/-- The decrypt commands behind the tests at issue. -/
theorem decrypt_commandOutcome (hi : i = .ecbDec ∨ i = .cbcDec) (hs : s.accepts) :
    ∃ t, exec i s = .next t ∧ CommandOutcome i s t := by
  by_cases hwhole : s.wholeBlocks
  · obtain ⟨_, t, ht, hdec⟩ := exec_decrypted hi hs hwhole
    have hadmits : s.admits i := by
      rcases hi with rfl | rfl <;> exact hwhole
    exact ⟨t, ht, .completed hs hadmits hdec.isOk⟩
  · exact ⟨_, exec_decrypt_of_not_wholeBlocks hi hs hwhole, .ragged hs hi hwhole⟩

/-- Every command leads to one of the cases of the table. -/
theorem exec_next_outcome (i : Instr) (s : State) : ∃ t, exec i s = .next t ∧ CommandOutcome i s t := by
  by_cases hi : i = .clr
  · exact ⟨_, hi ▸ exec_clr s, .cleared hi⟩
  rcases issued_cases (commandRule i) s with ⟨hf, he⟩ | ⟨hf, hlong, he⟩ | ⟨hs, -⟩
  · exact ⟨s, (exec_eq_issued hi s).trans (congrArg _ he), .ignored hi hf⟩
  · exact ⟨_, (exec_eq_issued hi s).trans (congrArg _ he), .overlong hi hf hlong⟩
  · cases i with
    | pad => exact codec_commandOutcome (.inl rfl) hs
    | strip => exact codec_commandOutcome (.inr (.inl rfl)) hs
    | validate => exact codec_commandOutcome (.inr (.inr rfl)) hs
    | ecbEnc => exact encrypt_commandOutcome (.inl rfl) hs
    | cbcEnc => exact encrypt_commandOutcome (.inr rfl) hs
    | ecbDec => exact decrypt_commandOutcome (.inl rfl) hs
    | cbcDec => exact decrypt_commandOutcome (.inr rfl) hs
    | clr => exact absurd rfl hi

theorem exec_outcome (h : exec i s = .next t) : CommandOutcome i s t := by
  obtain ⟨u, hu, houtcome⟩ := exec_next_outcome i s
  cases h.symm.trans hu
  exact houtcome

end

/-! ### The priority table -/

section

variable {i : Instr} {s t : State}

/-- A command byte selects its own command only. -/
theorem encode_injective : Function.Injective encode := fun i j h => by
  have hij := (decode_encode i).symm.trans ((congrArg decode h).trans (decode_encode j))
  injection hij

theorem encode_ne_clr (hi : i ≠ .clr) : encode i ≠ 0xFF := encode_injective.ne hi

theorem encode_mem_ordinaryCodes (hi : i ≠ .clr) : encode i ∈ ordinaryCodes := mem_ordinaryCodes.mpr ⟨i, hi, rfl⟩

/-- Row 2 of the table. -/
theorem priorityOutcome_of_fault {c : Byte} (hc : c ≠ 0xFF) (hf : s.fault = true) :
    priorityOutcome c s = (true, s.code) := by
  rw [priorityOutcome, if_neg hc, if_pos hf]

/-- Row 4 of the table. -/
theorem priorityOutcome_of_cap_lt (hi : i ≠ .clr) (hf : s.fault = false) (hlong : s.cap.val < s.len.toNat) :
    priorityOutcome (encode i) s = (true, 5) := by
  rw [priorityOutcome, if_neg (encode_ne_clr hi), hf, if_neg Bool.false_ne_true,
    if_neg (not_not.mpr (encode_mem_ordinaryCodes hi)), if_pos hlong]

/-- Rows 5 to 8 of the table, which stand for an accepted command, in the terms of `CommandOutcome`. -/
theorem priorityOutcome_of_accepts (hi : i ≠ .clr) (hs : s.accepts) :
    priorityOutcome (encode i) s =
      if (i = .pad ∨ i = .strip ∨ i = .validate) ∧ s.bs.toNat = 0 then (true, 4)
      else if (i = .ecbDec ∨ i = .cbcDec) ∧ (s.len.toNat = 0 ∨ s.len.toNat % 16 ≠ 0) then (true, 1)
      else if i = .pad ∧ s.cap.val < s.len.toNat + (s.bs.toNat - s.len.toNat % s.bs.toNat) then (true, 5)
      else if (i = .ecbEnc ∨ i = .cbcEnc) ∧ s.cap.val < s.len.toNat + (16 - s.len.toNat % 16) then (true, 5)
      else if i = .validate ∧ strippable s.bs.toNat s = none then (false, 2)
      else (false, 0) := by
  simp only [← encode_injective.eq_iff (a := i)]
  rw [priorityOutcome, if_neg (encode_ne_clr hi), hs.1, if_neg Bool.false_ne_true,
    if_neg (not_not.mpr (encode_mem_ordinaryCodes hi)), if_neg (Nat.not_lt.mpr hs.2)]
  rfl

theorem State.bs_toNat_ne_zero (h : s.bs ≠ 0) : s.bs.toNat ≠ 0 := by
  obtain ⟨hpos, -⟩ := State.bs_bounds h
  exact Nat.ne_of_gt hpos

theorem State.not_wholeBlocks : ¬ s.wholeBlocks ↔ s.len.toNat = 0 ∨ s.len.toNat % 16 ≠ 0 := by
  unfold State.wholeBlocks
  omega

/-- An accepted command that completes passes rows 5 to 7 of the table. -/
theorem priorityOutcome_of_admits (hi : i ≠ .clr) (hs : s.accepts) (h : s.admits i) :
    priorityOutcome (encode i) s = (false, 0) := by
  rw [priorityOutcome_of_accepts hi hs]
  cases i with
  | clr => exact absurd rfl hi
  | pad =>
    obtain ⟨hbs, hfit⟩ := h
    simp [State.bs_toNat_ne_zero hbs, Nat.not_lt.mpr hfit]
  | strip =>
    simp [State.bs_toNat_ne_zero h]
  | validate =>
    obtain ⟨hbs, p, hp⟩ := h
    simp [State.bs_toNat_ne_zero hbs, strippable_of_validPadding hp]
  | ecbEnc | cbcEnc => simp [Nat.not_lt.mpr h]
  | ecbDec | cbcDec =>
    obtain ⟨hpos, hmod⟩ := h
    simp [Nat.ne_of_gt hpos, hmod]

/-- The table gives each case the `STATUS` that its state has. -/
theorem CommandOutcome.status (h : CommandOutcome i s t) : (t.fault, t.code) = priorityOutcome (encode i) s := by
  cases h with
  | cleared hclr =>
    rw [hclr]
    rfl
  | ignored hi hf => rw [priorityOutcome_of_fault (encode_ne_clr hi) hf, hf]
  | overlong hi hf hlong =>
    rw [priorityOutcome_of_cap_lt hi hf hlong]
    rfl
  | noBlockSize hs hcodec hbs =>
    have hi : i ≠ .clr := by rcases hcodec with rfl | rfl | rfl <;> nofun
    rw [priorityOutcome_of_accepts hi hs, if_pos ⟨hcodec, congrArg BitVec.toNat hbs⟩]
    rfl
  | ragged hs hdecrypt hlength =>
    have hlen := State.not_wholeBlocks.mp hlength
    rcases hdecrypt with rfl | rfl <;> simp [priorityOutcome_of_accepts, hs, hlen, FaultCode.bits]
  | noRoomToPad hs hpad hbs hroom =>
    subst hpad
    simp [priorityOutcome_of_accepts, hs, State.bs_toNat_ne_zero hbs, Nat.lt_of_not_le hroom, FaultCode.bits]
  | noRoomToEncrypt hs hencrypt hroom =>
    rcases hencrypt with rfl | rfl <;>
      simp [priorityOutcome_of_accepts, hs, Nat.lt_of_not_le hroom, FaultCode.bits]
  | rejected hs hvalidate hbs hpadding =>
    subst hvalidate
    simp [priorityOutcome_of_accepts, hs, State.bs_toNat_ne_zero hbs, strippable_eq_none hpadding, ResultCode.bits, hs.1]
  | completed hs hadmits hok =>
    by_cases hi : i = .clr
    · rw [hi, hok.1, hok.2]
      rfl
    · rw [priorityOutcome_of_admits hi hs hadmits, hok.1, hok.2]

end

/-- Row 3 of the table: a reserved byte (R164). -/
theorem priorityOutcome_of_reserved {s : State} {c : Byte} (hc : c ≠ 0xFF) (hf : s.fault = false)
    (hmem : c ∉ ordinaryCodes) : priorityOutcome c s = (true, 3) := by
  rw [priorityOutcome, if_neg hc, hf, if_neg Bool.false_ne_true, if_pos hmem]

/-- Settles O9: a command byte has the outcome of its command, and the other bytes are reserved. -/
theorem outcomeFollowsThePriorityTable : Obligations.OutcomeFollowsThePriorityTable := by
  unfold Obligations.OutcomeFollowsThePriorityTable
  intro s c
  by_cases hc : ∃ i : Instr, c = encode i
  · obtain ⟨i, rfl⟩ := hc
    obtain ⟨t, ht, houtcome⟩ := exec_next_outcome i s
    exact ⟨t, (hostWrite_encode i s).trans ht, houtcome.status⟩
  · have hreserved : ∀ i : Instr, c ≠ encode i := fun i h => hc ⟨i, h⟩
    refine ⟨_, hostWrite_reserved hreserved s, ?_⟩
    cases hf : s.fault with
    | true => rw [illegalCommand_of_fault hf, hf, priorityOutcome_of_fault (hreserved .clr) hf]
    | false =>
      have hmem : c ∉ ordinaryCodes := fun h => by
        obtain ⟨i, -, hi⟩ := mem_ordinaryCodes.mp h
        exact hreserved i hi
      rw [illegalCommand_of_running hf, priorityOutcome_of_reserved (hreserved .clr) hf hmem]
      rfl

/-! ### Precision -/

/-- Settles O10: each case that ends in a fault or in `InvalidPadding` is a change of `STATUS`. -/
theorem faultsArePrecise : Obligations.FaultsArePrecise := by
  unfold Obligations.FaultsArePrecise
  intro i s t hf h
  cases exec_outcome h with
  | cleared => exact ⟨nofun, nofun⟩
  | ignored _ halted => exact absurd (hf.symm.trans halted) nofun
  | overlong | noBlockSize | ragged | noRoomToPad | noRoomToEncrypt => exact ⟨fun _ => rfl, nofun⟩
  | rejected => exact ⟨fun hfault => absurd (hf.symm.trans hfault) nofun, fun _ => rfl⟩
  | completed _ _ hok =>
    exact ⟨fun hfault => absurd (hok.1.symm.trans hfault) nofun, fun hcode => absurd hcode (hok.code_ne nofun)⟩

/-! ### The codes and what they come of -/

/-- Settles O13: `rejected` is the one case with this code, and STRIP and the decrypt commands have no such case. -/
theorem invalidPaddingIsValidateRejecting : Obligations.InvalidPaddingIsValidateRejecting := by
  unfold Obligations.InvalidPaddingIsValidateRejecting
  intro s hs
  refine ⟨fun hbs => ?_, fun i t h hcode => ?_, fun hbs => ?_, fun hwhole => ?_⟩
  · by_cases hvalid : ∃ p, ValidPadding s.bs.toNat s.len.toNat s.readBuf p
    · obtain ⟨p, hp⟩ := hvalid
      have hok := State.cutTo_isOk hs (s.len.toNat - p)
      exact ⟨_, exec_of_validPadding (.inl rfl) hs hbs hp, hok.1,
        fun hcode => absurd hcode (hok.code_ne nofun), fun hnone => absurd ⟨p, hp⟩ hnone⟩
    · exact ⟨_, exec_validate_of_not_validPadding hs hbs hvalid, hs.1, fun _ => hvalid, fun _ => rfl⟩
  · cases exec_outcome h with
    | ignored _ halted => exact absurd (hs.1.symm.trans halted) nofun
    | cleared | overlong | noBlockSize | ragged | noRoomToPad | noRoomToEncrypt => exact absurd hcode nofun
    | rejected _ hvalidate => exact hvalidate
    | completed _ _ hok => exact absurd hcode (hok.code_ne nofun)
  · obtain ⟨n, hn⟩ := exec_strip_eq_cutTo hs hbs
    exact ⟨_, hn, State.cutTo_isOk hs n⟩
  · obtain ⟨_, t, ht, hecb⟩ := exec_decrypted (.inl rfl) hs hwhole
    obtain ⟨_, u, hu, hcbc⟩ := exec_decrypted (.inr rfl) hs hwhole
    exact ⟨⟨t, ht, hecb.isOk⟩, u, hu, hcbc.isOk⟩

/-- Settles O14: the codec's commands test `BS` first, and `noBlockSize` is the one case with this code. -/
theorem invalidBlockSizeIsTheCodecPrecondition : Obligations.InvalidBlockSizeIsTheCodecPrecondition := by
  unfold Obligations.InvalidBlockSizeIsTheCodecPrecondition
  intro s hs
  refine ⟨fun hbs => ⟨exec_codec_of_bs_zero (.inl rfl) hs hbs, exec_codec_of_bs_zero (.inr (.inl rfl)) hs hbs,
    exec_codec_of_bs_zero (.inr (.inr rfl)) hs hbs⟩, fun i t h hcode => ?_⟩
  cases exec_outcome h with
  | ignored _ halted => exact absurd (hs.1.symm.trans halted) nofun
  | noBlockSize _ hcodec hbs => exact ⟨hcodec, hbs⟩
  | cleared | overlong | ragged | noRoomToPad | noRoomToEncrypt | rejected => exact absurd hcode nofun
  | completed _ _ hok => exact absurd hcode (hok.code_ne nofun)

/-- Settles O15: the tests at issue and `Pad(bs)` raise this code, and the three cases that have it are theirs. -/
theorem capacityAtIssueAndInPad : Obligations.CapacityAtIssueAndInPad := by
  unfold Obligations.CapacityAtIssueAndInPad
  intro s hf
  refine ⟨fun hlong i hi => ?_, fun hlen => ⟨fun hbs hroom => ?_, fun hroom => ⟨?_, ?_⟩⟩, fun i t h hcode => ?_⟩
  · rw [exec_eq_issued hi, issued_of_cap_lt hf hlong]
  · exact exec_pad_of_not_fits ⟨hf, hlen⟩ hbs hroom
  · exact exec_encrypt_of_not_fits (.inl rfl) ⟨hf, hlen⟩ hroom
  · exact exec_encrypt_of_not_fits (.inr rfl) ⟨hf, hlen⟩ hroom
  · cases exec_outcome h with
    | ignored _ halted => exact absurd (hf.symm.trans halted) nofun
    | overlong hi _ hlong => exact ⟨hi, .inl hlong⟩
    | noRoomToPad _ hpad _ hroom =>
      subst hpad
      exact ⟨nofun, .inr (.inl ⟨rfl, hroom⟩)⟩
    | noRoomToEncrypt _ hencrypt hroom =>
      have hi : i ≠ .clr := by rcases hencrypt with rfl | rfl <;> nofun
      exact ⟨hi, .inr (.inr ⟨hencrypt, hroom⟩)⟩
    | cleared | noBlockSize | ragged | rejected => exact absurd hcode nofun
    | completed _ _ hok => exact absurd hcode (hok.code_ne nofun)

end Sys2Proof.Machine
end

section
/-! # `KEY` and what the host observes

`KEY` is read by the chainer's commands only (`60_exceptions.md` R174) and by no read of the host (`20_memory.md` R55). Two states
that differ in `KEY` only (`State.withKey`) therefore stay so through every other transaction but a reset, and through every run
of such transactions. -/

namespace Sys2Proof.Machine

/-! ### Commands that do not read `KEY` -/

/-- `s` with another key. -/
def State.withKey (s : State) (key : Block) : State := { s with key := key }

/-- With another key the command does the same but for the key. -/
def IgnoresKey (command : State → State) : Prop := ∀ s k, command (s.withKey k) = (command s).withKey k

theorem issued_ignoresKey {command : State → State} (h : IgnoresKey command) : IgnoresKey (issued command) := by
  intro s k
  rcases issued_cases command s with ⟨hf, he⟩ | ⟨hf, hlong, he⟩ | ⟨hs, he⟩ <;> rw [he]
  · exact issued_of_fault (s := s.withKey k) hf command
  · exact issued_of_cap_lt (s := s.withKey k) hf hlong command
  · rw [issued_of_accepts (s := s.withKey k) hs, h]

theorem withBlockSize_ignoresKey {rule : Nat → State → State} (h : ∀ bs, IgnoresKey (rule bs)) :
    IgnoresKey (withBlockSize rule) := by
  intro s k
  rcases withBlockSize_cases rule s with ⟨hzero, he⟩ | ⟨hpos, -, he⟩
  · rw [he, withBlockSize, if_pos (show (s.withKey k).bs.toNat = 0 from hzero)]
    rfl
  · rw [he, ← h, withBlockSize, if_neg (show (s.withKey k).bs.toNat ≠ 0 from Nat.ne_of_gt hpos)]
    rfl

theorem padRule_ignoresKey (bs : Nat) : IgnoresKey (padRule bs) := by
  intro s k
  unfold padRule
  by_cases hfit : s.fits bs
  · rw [padMessage_of_fits hfit, padMessage_of_fits (s := s.withKey k) hfit]
    rfl
  · rw [padMessage_of_not_fits hfit, padMessage_of_not_fits (s := s.withKey k) hfit]
    rfl

theorem strippable_withKey (bs : Nat) (s : State) (k : Block) : strippable bs (s.withKey k) = strippable bs s := rfl

theorem stripRule_ignoresKey (bs : Nat) : IgnoresKey (stripRule bs) := by
  intro s k
  simp only [stripRule, stripPadding, strippable_withKey]
  cases strippable bs s <;> rfl

theorem validateRule_ignoresKey (bs : Nat) : IgnoresKey (validateRule bs) := by
  intro s k
  simp only [validateRule, strippable_withKey]
  cases strippable bs s <;> rfl

theorem illegalCommand_ignoresKey : IgnoresKey illegalCommand := by
  intro s k
  cases hf : s.fault with
  | true => rw [illegalCommand_of_fault hf, illegalCommand_of_fault (s := s.withKey k) hf]
  | false =>
    rw [illegalCommand_of_running hf, illegalCommand_of_running (s := s.withKey k) hf]
    rfl

/-- The issue of a byte that is neither CLR's nor a chainer command's (`30_encoding.md` R90) does not read `KEY`. -/
theorem hostWrite_cmd_ignoresKey {v : Byte}
    (hv : v ≠ 0x10 ∧ v ≠ 0x11 ∧ v ≠ 0x12 ∧ v ≠ 0x13 ∧ v ≠ 0xFF) :
    ∃ command, IgnoresKey command ∧ ∀ s, hostWrite 0x00000 v s = .next (command s) := by
  obtain ⟨hecbEnc, hecbDec, hcbcEnc, hcbcDec, hclr⟩ := hv
  by_cases hmem : v ∈ ordinaryCodes
  · obtain ⟨i, hi, rfl⟩ := mem_ordinaryCodes.mp hmem
    refine ⟨issued (commandRule i), issued_ignoresKey ?_, hostWrite_encode_eq_issued hi⟩
    cases i with
    | pad => exact withBlockSize_ignoresKey padRule_ignoresKey
    | strip => exact withBlockSize_ignoresKey stripRule_ignoresKey
    | validate => exact withBlockSize_ignoresKey validateRule_ignoresKey
    | ecbEnc => exact absurd rfl hecbEnc
    | ecbDec => exact absurd rfl hecbDec
    | cbcEnc => exact absurd rfl hcbcEnc
    | cbcDec => exact absurd rfl hcbcDec
    | clr => exact absurd rfl hclr
  · exact ⟨illegalCommand, illegalCommand_ignoresKey,
      hostWrite_reserved (ne_encode_of_not_mem_ordinaryCodes hclr hmem)⟩

/-! ### Transactions and runs -/

/-- `KEY` is write only (`20_memory.md` R55). -/
theorem readReg_withKey (s : State) (k : Block) (r : Reg) : readReg (s.withKey k) r = readReg s r := by
  cases r <;> rfl

theorem hostRead_withKey (s : State) (k : Block) (addr : Addr) : hostRead (s.withKey k) addr = hostRead s addr :=
  hostRead_congr rfl fun r _ => readReg_withKey s k r

/-- A data write with another key does the same but for the key. -/
theorem writeReg_withKey (s : State) (k : Block) (v : Byte) (r : Reg) :
    writeReg (s.withKey k) v r = (writeReg s v r).withKey (writeReg (s.withKey k) v r).key := by
  cases r <;> rfl

/-- An event that spares the key does the same with another key, but for the key. -/
theorem hostEvent_withKey {e : HostEvent} (he : HostEvent.sparesTheKey e) (s : State) (k : Block) :
    ∃ t k', hostEvent e s = .next t ∧ hostEvent e (s.withKey k) = .next (t.withKey k') := by
  cases e with
  | reset => exact he.elim
  | read addr =>
    refine ⟨_, k, rfl, ?_⟩
    change Host.Outcome.next ((s.withKey k).observe (hostRead (s.withKey k) addr)) = _
    rw [hostRead_withKey]
    rfl
  | write addr v =>
    by_cases haddr : addr = 0
    · subst haddr
      obtain ⟨command, hcommand, hwrite⟩ := hostWrite_cmd_ignoresKey (he.resolve_left (absurd rfl))
      exact ⟨command s, k, hwrite s, (hwrite _).trans (congrArg _ (hcommand s k))⟩
    · obtain ⟨r, hr⟩ := hostWrite_eq_writeReg s.cap haddr
      exact ⟨_, _, hr s rfl v, (hr (s.withKey k) rfl v).trans (congrArg _ (writeReg_withKey s k v r))⟩

/-- So does a run of such events. -/
theorem runEvents_withKey {events : List HostEvent} (hevents : ∀ e ∈ events, HostEvent.sparesTheKey e) (s : State)
    (k : Block) :
    ∃ t k', runEvents events s = .next t ∧ runEvents events (s.withKey k) = .next (t.withKey k') := by
  induction events generalizing s k with
  | nil => exact ⟨_, k, runEvents_nil s, runEvents_nil _⟩
  | cons e events ih =>
    obtain ⟨he, hevents⟩ := List.forall_mem_cons.mp hevents
    obtain ⟨t, k', ht, hu⟩ := hostEvent_withKey he (s.sending events) k
    have hpending : t.pending = events := (hostEvent_effect ht).pending
    have hs : runEvents (e :: events) s = runEvents events t := runEvents_cons ht hpending
    have hk : runEvents (e :: events) (s.withKey k) = runEvents events (t.withKey k') := runEvents_cons hu hpending
    rw [hs, hk]
    exact ih hevents t k'

/-- Settles O42: the second run ends in the state of the first with another key. -/
theorem keyIsObservedOnlyThroughTheChainer : Obligations.KeyIsObservedOnlyThroughTheChainer := by
  unfold Obligations.KeyIsObservedOnlyThroughTheChainer
  intro events s k hevents
  obtain ⟨t, k', ht, hu⟩ := runEvents_withKey hevents s k
  exact ⟨t, t.withKey k', ht, hu, rfl, rfl⟩

end Sys2Proof.Machine
end

section
/-! # What a run leaves the host with

No event is refused (`runEvents_next`), so what is left of `70_reset_and_hazards.md` R202 to R204 is what the host has observed
(R203): one byte for each read it made. `AnswersReads n s t` counts those bytes; one event answers one read or none
(`hostEvent_answersReads`), and the counts of a run's events add up (`AnswersReads.trans`). -/

namespace Sys2Proof.Machine

/-- From `s` to `t` the host has read `n` bytes, kept after those it had, and the capacity is as it was. -/
structure AnswersReads (n : Nat) (s t : State) : Prop where
  cap : t.cap = s.cap
  observed : ∃ bytes, t.observed = s.observed ++ bytes ∧ bytes.length = n

namespace AnswersReads

variable {m n : Nat} {s t u : State}

theorem zero (hcap : t.cap = s.cap) (hobserved : t.observed = s.observed) : AnswersReads 0 s t :=
  ⟨hcap, [], by rw [hobserved, List.append_nil], rfl⟩

theorem observe (s : State) (v : Byte) : AnswersReads 1 s (s.observe v) := ⟨rfl, [v], rfl, rfl⟩

/-- What is still to send is no part of what the host has read. -/
theorem of_sending {rest : List HostEvent} (h : AnswersReads n (s.sending rest) t) : AnswersReads n s t :=
  ⟨h.cap, h.observed⟩

theorem trans (hst : AnswersReads m s t) (htu : AnswersReads n t u) : AnswersReads (m + n) s u := by
  obtain ⟨before, hbefore, hm⟩ := hst.observed
  obtain ⟨after, hafter, hn⟩ := htu.observed
  exact ⟨htu.cap.trans hst.cap, before ++ after, by rw [hafter, hbefore, List.append_assoc],
    by rw [List.length_append, hm, hn]⟩

end AnswersReads

/-! ### One event -/

/-- A command answers no read (`70_reset_and_hazards.md` R204). -/
theorem CommandEffect.answersReads {i : Instr} {s t : State} (h : CommandEffect i s t) : AnswersReads 0 s t := by
  cases h with
  | ignored | faulted | rejected => exact .zero rfl rfl
  | completed _ _ _ hw =>
    obtain ⟨-, -, -, hcap, -, -, -, hobserved⟩ := hw.operands
    exact .zero hcap hobserved

theorem exec_answersReads {i : Instr} {s t : State} (h : exec i s = .next t) : AnswersReads 0 s t := by
  by_cases hi : i = .clr
  · rw [hi, exec_clr] at h
    cases h
    exact .zero rfl rfl
  · exact (exec_effect hi h).answersReads

theorem illegalCommand_answersReads (s : State) : AnswersReads 0 s (illegalCommand s) := by
  rcases illegalCommand_cases s with he | he <;> rw [he] <;> exact .zero rfl rfl

theorem issueByte_answersReads {c : Byte} {s t : State} (h : issueByte c s = .next t) : AnswersReads 0 s t := by
  unfold issueByte at h
  split at h
  · exact exec_answersReads h
  · cases h
    exact illegalCommand_answersReads s

theorem writeReg_answersReads (s : State) (v : Byte) (r : Reg) : AnswersReads 0 s (writeReg s v r) := by
  cases r <;> exact .zero rfl rfl

/-- A write is the issue of a command, at `CMD`, or the write of one register (`20_memory.md` R53). -/
theorem hostWrite_answersReads {addr : Addr} {v : Byte} {s t : State} (h : hostWrite addr v s = .next t) :
    AnswersReads 0 s t := by
  by_cases haddr : addr = 0
  · subst haddr
    exact issueByte_answersReads ((hostWrite_cmd v s).symm.trans h)
  · obtain ⟨r, hr⟩ := hostWrite_eq_writeReg s.cap haddr
    rw [hr s rfl v] at h
    cases h
    exact writeReg_answersReads s v r

/-- One event answers one read if it is one, and none if it is a write or a reset. -/
theorem hostEvent_answersReads {e : HostEvent} {s t : State} (h : hostEvent e s = .next t) :
    AnswersReads ([e].countP HostEvent.isRead) s t := by
  cases e with
  | write addr v => exact hostWrite_answersReads h
  | read addr =>
    cases h
    exact .observe s _
  | reset =>
    cases h
    exact .zero rfl rfl

/-! ### A run -/

theorem runEvents_answersReads {events : List HostEvent} {s t : State} (h : runEvents events s = .next t) :
    AnswersReads (events.countP HostEvent.isRead) s t := by
  induction events generalizing s with
  | nil =>
    cases h
    exact .zero rfl rfl
  | cons e events ih =>
    obtain ⟨u, hu⟩ := hostEvent_next e (s.sending events)
    rw [runEvents_cons hu (hostEvent_effect hu).pending] at h
    have hfirst : AnswersReads ([e].countP HostEvent.isRead) s u := (hostEvent_answersReads hu).of_sending
    rw [← List.singleton_append, List.countP_append]
    exact hfirst.trans (ih h)

/-- Settles O43: every run comes to its end, and its events answer one byte for each read among them. -/
theorem everyRunComesToItsEnd : Obligations.EveryRunComesToItsEnd := by
  unfold Obligations.EveryRunComesToItsEnd
  intro events s
  obtain ⟨t, ht, hpending⟩ := runEvents_next events s
  obtain ⟨hcap, hobserved⟩ := runEvents_answersReads ht
  exact ⟨t, ht, hpending, hcap, hobserved⟩

end Sys2Proof.Machine
end
